-- ==== Sys2Proof/Word.lean ====
section
/-! DEFINITION. The two sizes of data the hardware stores: a byte, the unit an address names, and a
16-bit word (spec/00_scope.md R6, R11; spec/10_state.md R20). -/

namespace Sys2Proof

/-- A 16-bit word: a register, an address, an instruction or extension word (R6 XLEN, ADDR_WIDTH). -/
abbrev Word := BitVec 16

/-- Eight bits, the unit an address names (R11, R60). -/
abbrev Byte := BitVec 8

end Sys2Proof
end

