-- ==== Sys2Proof/Config.lean ====
section
/-! DEFINITION. The implementation parameters of spec/00_scope.md R6: what is fixed for one machine.
SP_INIT is OPEN in the spec: `State.init` takes it as an argument, and the value here is the one the reset
state names. The four behaviours for which the spec decides a value and names an alternative (R6, last
paragraph; spec/93_implementation_defined.md U2, U4, U7, U8) stand here at the decided value. -/

namespace Sys2Proof

/-- Where CALL takes the return address from (93 entry U4, parameter CALL_PUSHES). -/
inductive CallPushes where
  /-- PC after all operand words (the decided value, R176). -/
  | afterOperands
  /-- PC after the instruction word alone. -/
  | afterOpcodeWord
  deriving DecidableEq, Repr

/-- Whether PC as an index base is read after or before it moves past the offset word (93 entry U7,
parameter INDEX_PC_BASE). -/
inductive IndexPcBase where
  /-- After the advance (the decided value, R144, R147). -/
  | after
  /-- Before the advance: 2 less. -/
  | before
  deriving DecidableEq, Repr

/-- What a byte-mode write does to the high byte of a register (93 entry U8, parameter
BYTE_REG_WRITE). -/
inductive ByteRegWrite where
  /-- It is cleared (the decided value, R151). -/
  | zeroExtend
  /-- It is kept. -/
  | preserveHigh
  deriving DecidableEq, Repr

namespace Config

/-- MEM_SIZE, the bytes of the address space (R6, R60). -/
def memSize : Nat := 65536

/-- RESET_VECTOR, the address `init` loads PC from (R6, R70, R300). -/
def resetVector : Word := 0xFFFE#16

/-- DESIGN CHOICE (log entry 1): the SP_INIT of the reset state. The spec leaves it an open parameter
without a default (R6, R301; 92 D19; 93 U14); 0x0400 is what its test vectors take (T5-13). No statement
rests on this value: `State.init` takes SP_INIT as an argument. -/
def spInit : Word := 0x0400#16

/-- RRA_SETS_C (93 U2): RRA loads C from the bit shifted out (R173). -/
def rraSetsC : Bool := true

/-- CALL_PUSHES (93 U4) at its decided value (R176). -/
def callPushes : CallPushes := .afterOperands

/-- INDEX_PC_BASE (93 U7) at its decided value (R144, R147). -/
def indexPcBase : IndexPcBase := .after

/-- BYTE_REG_WRITE (93 U8) at its decided value (R151). -/
def byteRegWrite : ByteRegWrite := .zeroExtend

end Config
end Sys2Proof
end

