-- ==== Sys2Proof/Syntax.lean ====
section
/-! DEFINITION. The instructions as data: one constructor of `Instr` per row of spec/opcode_table.json
(spec/30_encoding.md R109), its arguments the fields of the row's format (R102, R103, R104). The four
rows of unknown opcodes are constructors too: the spec gives each of them its effect, a halt (R178,
R213, R214). Extension words are no fields of the instruction word: the operand resolver fetches them
at PC while the instruction runs (spec/40_operand_resolution.md R142, R147); `Assembled` is an
instruction together with them, as it stands in memory (R101). -/

namespace Sys2Proof

/-- A register's index, 0 to 15 (spec/10_state.md R20). -/
abbrev Reg := Fin 16

namespace Reg

/-- R0, the program counter (R21, R24). -/
abbrev pc : Reg := 0
/-- R1, the stack pointer (R21, R26). -/
abbrev sp : Reg := 1
/-- R2, the status register; as a source in a mode above 0, constant generator 1 (R21, R27, R35). -/
abbrev sr : Reg := 2
/-- R3; as a source, constant generator 2 (R21, R23, R35). -/
abbrev cg2 : Reg := 3

end Reg

/-- The byte/word flag `bw`: 0 is word mode, 1 is byte mode (spec/00_scope.md R8). -/
inductive Width where
  | word
  | byte
  deriving DecidableEq, Repr

/-- The 2-bit mode field `As` (R105). -/
inductive SrcMode where
  /-- 0: the register's value. -/
  | register
  /-- 1: memory at offset word + register. -/
  | indexed
  /-- 2: memory at the register's value. -/
  | indirect
  /-- 3: memory at the register's value, then the register steps. -/
  | autoinc
  deriving DecidableEq, Repr

/-- The 1-bit mode field `Ad` (R106). -/
inductive DstMode where
  /-- 0: the register. -/
  | register
  /-- 1: memory at the extension word + register (at the extension word alone for register 2). -/
  | memory
  deriving DecidableEq, Repr

/-- The operand of a single-operand instruction and the source of a two-operand one. -/
structure Operand where
  reg : Reg
  mode : SrcMode
  deriving DecidableEq, Repr

/-- The destination of a two-operand instruction. -/
structure Dest where
  reg : Reg
  mode : DstMode
  deriving DecidableEq, Repr

/-- The three instruction shapes (R100). -/
inductive Shape where
  | singleOperand
  | jump
  | twoOperand
  deriving DecidableEq, Repr

/-- The instructions, in the order of spec/opcode_table.json. `rest` is what a fatal word holds below
the bits that select it; the core ignores it (R177, R203), and the fault record keeps it (R264). -/
inductive Instr where
  | rrc (bw : Width) (op : Operand)
  | swpb (bw : Width) (op : Operand)
  | rra (bw : Width) (op : Operand)
  | sxt (bw : Width) (op : Operand)
  | push (bw : Width) (op : Operand)
  | call (bw : Width) (op : Operand)
  | reti (rest : BitVec 7)
  /-- `opc1` = 7 (R178). -/
  | unknownSingle7 (rest : BitVec 7)
  | jne (off : BitVec 10)
  | jeq (off : BitVec 10)
  | jnc (off : BitVec 10)
  | jc (off : BitVec 10)
  | jn (off : BitVec 10)
  | jge (off : BitVec 10)
  | jl (off : BitVec 10)
  | jmp (off : BitVec 10)
  | mov (bw : Width) (src : Operand) (dst : Dest)
  | add (bw : Width) (src : Operand) (dst : Dest)
  | addc (rest : BitVec 12)
  | subc (rest : BitVec 12)
  | sub (bw : Width) (src : Operand) (dst : Dest)
  | cmp (bw : Width) (src : Operand) (dst : Dest)
  | dadd (rest : BitVec 12)
  | bit (rest : BitVec 12)
  | bic (bw : Width) (src : Operand) (dst : Dest)
  | bis (bw : Width) (src : Operand) (dst : Dest)
  | xor (bw : Width) (src : Operand) (dst : Dest)
  | and (bw : Width) (src : Operand) (dst : Dest)
  /-- `opc2` = 0, the words 0x0000 to 0x0FFF (R213). -/
  | unknownTwo0 (rest : BitVec 12)
  /-- `opc2` = 1, the words 0x1400 to 0x17FF (R214). -/
  | unknownTwo1Low (rest : BitVec 10)
  /-- `opc2` = 1, the words 0x1800 to 0x1FFF (R214). -/
  | unknownTwo1High (rest : BitVec 11)
  deriving DecidableEq, Repr

/-- The shape of an instruction (R100, R109). -/
def Instr.shape : Instr → Shape
  | .rrc _ _ | .swpb _ _ | .rra _ _ | .sxt _ _ | .push _ _ | .call _ _ | .reti _ | .unknownSingle7 _ => .singleOperand
  | .jne _ | .jeq _ | .jnc _ | .jc _ | .jn _ | .jge _ | .jl _ | .jmp _ => .jump
  | .mov _ _ _ | .add _ _ _ | .addc _ | .subc _ | .sub _ _ _ | .cmp _ _ _ | .dadd _ | .bit _ => .twoOperand
  | .bic _ _ _ | .bis _ _ _ | .xor _ _ _ | .and _ _ _ => .twoOperand
  | .unknownTwo0 _ | .unknownTwo1Low _ | .unknownTwo1High _ => .twoOperand

/-- An instruction with the extension words that follow its instruction word in memory (R101). -/
structure Assembled where
  instr : Instr
  ext : List Word
  deriving DecidableEq, Repr

end Sys2Proof
end

