-- ==== Sys2Proof/WellFormed.lean ====
section
/-! DEFINITION. Which terms are instructions of the hardware. Every `Instr` is one: the fields' types
admit exactly the values of the encoding's fields, and no field value is reserved
(spec/30_encoding.md R112). What can be ill-formed is an instruction with its extension words: their
number follows from the instruction word alone (R101, R113). -/

namespace Sys2Proof

/-- Whether an operand takes an extension word: "mode 1 on a register other than 2 and 3, or mode 3 on
register 0" (R101). -/
def Operand.takesWord (op : Operand) : Bool :=
  match op.mode with
  | .register => false
  | .indexed => op.reg ≠ Reg.sr && op.reg ≠ Reg.cg2
  | .indirect => false
  | .autoinc => op.reg == Reg.pc

/-- "a destination extension word when Ad = 1" (R101). -/
def Dest.takesWord (dst : Dest) : Bool :=
  match dst.mode with
  | .register => false
  | .memory => true

/-- The number of extension words an instruction consumes when it executes (R101). A jump is one word;
a word that raises a fatal condition consumes the instruction word only, whatever its fields say (R113). -/
def Instr.extWords : Instr → Nat
  | .rrc _ op | .swpb _ op | .rra _ op | .sxt _ op | .push _ op | .call _ op => op.takesWord.toNat
  | .mov _ s d | .add _ s d | .sub _ s d | .cmp _ s d => s.takesWord.toNat + d.takesWord.toNat
  | .bic _ s d | .bis _ s d | .xor _ s d | .and _ s d => s.takesWord.toNat + d.takesWord.toNat
  | .jne _ | .jeq _ | .jnc _ | .jc _ | .jn _ | .jge _ | .jl _ | .jmp _ => 0
  | .reti _ | .addc _ | .subc _ | .dadd _ | .bit _ => 0
  | .unknownSingle7 _ | .unknownTwo0 _ | .unknownTwo1Low _ | .unknownTwo1High _ => 0

/-- An instruction carries exactly the extension words it consumes (R101, R113). -/
def Assembled.wellFormed (a : Assembled) : Bool :=
  a.ext.length == a.instr.extWords

end Sys2Proof
end

