-- ==== Sys2Proof/Decode.lean ====
section
/-! DEFINITION. The decoder and, after it, the encoder, both written from the formats of
spec/30_encoding.md R102 to R104 and the opcode map R109. `decodeWord` reads one instruction word and is
total, as the map is a partition of the 65536 words (R117); `decode` reads an instruction with its
extension words from bytes and refuses, by name, a list that ends too early. -/

namespace Sys2Proof

/-! ## Fields of the instruction word -/

/-- The field `w[lo+len-1:lo]` (spec/00_scope.md R7). -/
def field (w : Word) (lo len : Nat) : BitVec len :=
  w.extractLsb' lo len

/-- The register number in `w[lo+3:lo]`. -/
def fieldReg (w : Word) (lo : Nat) : Reg :=
  (field w lo 4).toFin

/-- `bw` is bit 6 in both operand formats (R102, R104). -/
def fieldWidth (w : Word) : Width :=
  if w.getLsbD 6 then .byte else .word

/-- `As` is bits 5:4 in both operand formats (R102, R104); the numbering is that of R105. -/
def fieldAs (w : Word) : SrcMode :=
  match w.getLsbD 5, w.getLsbD 4 with
  | false, false => .register
  | false, true => .indexed
  | true, false => .indirect
  | true, true => .autoinc

/-- `Ad` is bit 7 of the two-operand format (R104, R106). -/
def fieldAd (w : Word) : DstMode :=
  if w.getLsbD 7 then .memory else .register

/-- The operand of the single-operand format: `reg` 3:0, `As` 5:4 (R102). -/
def fieldOperand (w : Word) : Operand :=
  { reg := fieldReg w 0, mode := fieldAs w }

/-- The source of the two-operand format: `sreg` 11:8, `As` 5:4 (R104). -/
def fieldSource (w : Word) : Operand :=
  { reg := fieldReg w 8, mode := fieldAs w }

/-- The destination of the two-operand format: `dreg` 3:0, `Ad` 7 (R104). -/
def fieldDest (w : Word) : Dest :=
  { reg := fieldReg w 0, mode := fieldAd w }

/-! ## The decoder -/

/-- The classifier, its two tests in the order the source gives them (R100). -/
def classify (w : Word) : Shape :=
  if field w 10 6 = 0b000100#6 then .singleOperand
  else if field w 13 3 = 0b001#3 then .jump
  else .twoOperand

/-- The single-operand shape, selected by `opc1` = `w[9:7]` (R109, first table). -/
def decodeSingle (w : Word) : Instr :=
  match w.getLsbD 9, w.getLsbD 8, w.getLsbD 7 with
  | false, false, false => .rrc (fieldWidth w) (fieldOperand w)
  | false, false, true => .swpb (fieldWidth w) (fieldOperand w)
  | false, true, false => .rra (fieldWidth w) (fieldOperand w)
  | false, true, true => .sxt (fieldWidth w) (fieldOperand w)
  | true, false, false => .push (fieldWidth w) (fieldOperand w)
  | true, false, true => .call (fieldWidth w) (fieldOperand w)
  | true, true, false => .reti (field w 0 7)
  | true, true, true => .unknownSingle7 (field w 0 7)

/-- The jump shape, selected by `cond` = `w[12:10]` (R109, second table). -/
def decodeJump (w : Word) : Instr :=
  match w.getLsbD 12, w.getLsbD 11, w.getLsbD 10 with
  | false, false, false => .jne (field w 0 10)
  | false, false, true => .jeq (field w 0 10)
  | false, true, false => .jnc (field w 0 10)
  | false, true, true => .jc (field w 0 10)
  | true, false, false => .jn (field w 0 10)
  | true, false, true => .jge (field w 0 10)
  | true, true, false => .jl (field w 0 10)
  | true, true, true => .jmp (field w 0 10)

/-- The words with top four bits 0001: the single-operand shape is told apart first, by bits 11:10
(R100); the rest is `opc2` = 1 of the two-operand path, in the table's two rows (R214). -/
def decodeTop1 (w : Word) : Instr :=
  match w.getLsbD 11, w.getLsbD 10 with
  | false, false => decodeSingle w
  | false, true => .unknownTwo1Low (field w 0 10)
  | true, _ => .unknownTwo1High (field w 0 11)

/-- The instruction a word is (R100, R109): selected by its top four bits, 0001 and 001x being shared
out as the classifier says. -/
def decodeWord (w : Word) : Instr :=
  match w.getLsbD 15, w.getLsbD 14, w.getLsbD 13, w.getLsbD 12 with
  | false, false, false, false => .unknownTwo0 (field w 0 12)
  | false, false, false, true => decodeTop1 w
  | false, false, true, _ => decodeJump w
  | false, true, false, false => .mov (fieldWidth w) (fieldSource w) (fieldDest w)
  | false, true, false, true => .add (fieldWidth w) (fieldSource w) (fieldDest w)
  | false, true, true, false => .addc (field w 0 12)
  | false, true, true, true => .subc (field w 0 12)
  | true, false, false, false => .sub (fieldWidth w) (fieldSource w) (fieldDest w)
  | true, false, false, true => .cmp (fieldWidth w) (fieldSource w) (fieldDest w)
  | true, false, true, false => .dadd (field w 0 12)
  | true, false, true, true => .bit (field w 0 12)
  | true, true, false, false => .bic (fieldWidth w) (fieldSource w) (fieldDest w)
  | true, true, false, true => .bis (fieldWidth w) (fieldSource w) (fieldDest w)
  | true, true, true, false => .xor (fieldWidth w) (fieldSource w) (fieldDest w)
  | true, true, true, true => .and (fieldWidth w) (fieldSource w) (fieldDest w)

/-! ## Lengths -/

/-- `SrcExt(reg, mode)` (R113). -/
def srcExt (op : Operand) : Nat :=
  if (op.mode = .indexed ∧ op.reg ≠ 2 ∧ op.reg ≠ 3) ∨ (op.mode = .autoinc ∧ op.reg = 0) then 1 else 0

/-- The extension words by the formula of R113, read from the word's fields; a fatal word takes none. -/
def extCount (w : Word) : Nat :=
  match decodeWord w with
  | .rrc _ _ | .swpb _ _ | .rra _ _ | .sxt _ _ | .push _ _ | .call _ _ => srcExt (fieldOperand w)
  | .mov _ _ _ | .add _ _ _ | .sub _ _ _ | .cmp _ _ _ => srcExt (fieldSource w) + (field w 7 1).toNat
  | .bic _ _ _ | .bis _ _ _ | .xor _ _ _ | .and _ _ _ => srcExt (fieldSource w) + (field w 7 1).toNat
  | .jne _ | .jeq _ | .jnc _ | .jc _ | .jn _ | .jge _ | .jl _ | .jmp _ => 0
  | .reti _ | .addc _ | .subc _ | .dadd _ | .bit _ => 0
  | .unknownSingle7 _ | .unknownTwo0 _ | .unknownTwo1Low _ | .unknownTwo1High _ => 0

/-! ## Bytes -/

/-- Why a list of bytes holds no instruction at its head. -/
inductive DecodeError where
  /-- Fewer than the two bytes of an instruction word. -/
  | noInstructionWord
  /-- The instruction word is there, and fewer extension words than it takes. -/
  | noExtensionWord
  deriving DecidableEq, Repr

/-- A word from its two bytes, low byte first (spec/20_memory.md R62). -/
def wordOfBytes (lo hi : Byte) : Word :=
  (hi.setWidth 16 <<< 8) ||| lo.setWidth 16

/-- `n` little-endian words from the head of a list of bytes, and what follows them. -/
def takeWords : Nat → List Byte → Option (List Word × List Byte)
  | 0, bs => some ([], bs)
  | n + 1, lo :: hi :: bs => (takeWords n bs).map fun (ws, rest) => (wordOfBytes lo hi :: ws, rest)
  | _ + 1, _ => none

/-- The instruction at the head of a list of bytes, with its extension words in the order of R107, and
the bytes after it. -/
def decode : List Byte → Except DecodeError (Assembled × List Byte)
  | lo :: hi :: bs =>
    let w := wordOfBytes lo hi
    match takeWords (extCount w) bs with
    | some (ext, rest) => .ok ({ instr := decodeWord w, ext := ext }, rest)
    | none => .error .noExtensionWord
  | _ => .error .noInstructionWord

/-! ## The encoder -/

def Width.bits : Width → BitVec 1
  | .word => 0#1
  | .byte => 1#1

def SrcMode.bits : SrcMode → BitVec 2
  | .register => 0#2
  | .indexed => 1#2
  | .indirect => 2#2
  | .autoinc => 3#2

def DstMode.bits : DstMode → BitVec 1
  | .register => 0#1
  | .memory => 1#1

def regBits (r : Reg) : BitVec 4 :=
  BitVec.ofFin r

/-- A field's value at its place in the instruction word, bit 0 of it at bit `lo`. -/
def put (v : BitVec n) (lo : Nat) : Word :=
  v.setWidth 16 <<< lo

/-- 15:10 fixed, 9:7 `opc1`, 6 `bw`, 5:4 `As`, 3:0 `reg` (R102). -/
def singleWord (opc1 : BitVec 3) (bw : Width) (op : Operand) : Word :=
  put 0b000100#6 10 ||| put opc1 7 ||| put bw.bits 6 ||| put op.mode.bits 4 ||| put (regBits op.reg) 0

/-- A single-operand word whose low seven bits the core ignores (R177, R178). -/
def singleFatalWord (opc1 : BitVec 3) (rest : BitVec 7) : Word :=
  put 0b000100#6 10 ||| put opc1 7 ||| put rest 0

/-- 15:13 fixed, 12:10 `cond`, 9:0 `off10` (R103). -/
def jumpWord (cond : BitVec 3) (off : BitVec 10) : Word :=
  put 0b001#3 13 ||| put cond 10 ||| put off 0

/-- 15:12 `opc2`, 11:8 `sreg`, 7 `Ad`, 6 `bw`, 5:4 `As`, 3:0 `dreg` (R104). -/
def twoWord (opc2 : BitVec 4) (bw : Width) (src : Operand) (dst : Dest) : Word :=
  put opc2 12 ||| put (regBits src.reg) 8 ||| put dst.mode.bits 7 ||| put bw.bits 6 ||| put src.mode.bits 4 |||
    put (regBits dst.reg) 0

/-- A two-operand word whose low twelve bits the core ignores (R203, R213). -/
def twoFatalWord (opc2 : BitVec 4) (rest : BitVec 12) : Word :=
  put opc2 12 ||| put rest 0

/-- The instruction word of an instruction (R102 to R104, R109). -/
def encodeWord : Instr → Word
  | .rrc bw op => singleWord 0#3 bw op
  | .swpb bw op => singleWord 1#3 bw op
  | .rra bw op => singleWord 2#3 bw op
  | .sxt bw op => singleWord 3#3 bw op
  | .push bw op => singleWord 4#3 bw op
  | .call bw op => singleWord 5#3 bw op
  | .reti rest => singleFatalWord 6#3 rest
  | .unknownSingle7 rest => singleFatalWord 7#3 rest
  | .jne off => jumpWord 0#3 off
  | .jeq off => jumpWord 1#3 off
  | .jnc off => jumpWord 2#3 off
  | .jc off => jumpWord 3#3 off
  | .jn off => jumpWord 4#3 off
  | .jge off => jumpWord 5#3 off
  | .jl off => jumpWord 6#3 off
  | .jmp off => jumpWord 7#3 off
  | .mov bw src dst => twoWord 4#4 bw src dst
  | .add bw src dst => twoWord 5#4 bw src dst
  | .addc rest => twoFatalWord 6#4 rest
  | .subc rest => twoFatalWord 7#4 rest
  | .sub bw src dst => twoWord 8#4 bw src dst
  | .cmp bw src dst => twoWord 9#4 bw src dst
  | .dadd rest => twoFatalWord 10#4 rest
  | .bit rest => twoFatalWord 11#4 rest
  | .bic bw src dst => twoWord 12#4 bw src dst
  | .bis bw src dst => twoWord 13#4 bw src dst
  | .xor bw src dst => twoWord 14#4 bw src dst
  | .and bw src dst => twoWord 15#4 bw src dst
  | .unknownTwo0 rest => twoFatalWord 0#4 rest
  | .unknownTwo1Low rest => put 0b000101#6 10 ||| put rest 0
  | .unknownTwo1High rest => put 0b00011#5 11 ||| put rest 0

/-- The words of an instruction in memory order: the instruction word, the source's extension word, the
destination's (R107). -/
def encode (a : Assembled) : List Word :=
  encodeWord a.instr :: a.ext

/-- Words as bytes in address order, each low byte first (R62). -/
def bytesOfWords : List Word → List Byte
  | [] => []
  | w :: ws => w.extractLsb' 0 8 :: w.extractLsb' 8 8 :: bytesOfWords ws

/-! ## The opcode map as a table -/

/-- One row of R109: the word `w` is the instruction when `w &&& mask = pat`. -/
structure OpcodeRow where
  mnemonic : String
  pat : Word
  mask : Word
  deriving DecidableEq, Repr

/-- R109, the single-operand shape. -/
def singleRows : List OpcodeRow :=
  [⟨"RRC", 0x1000, 0xFF80⟩, ⟨"SWPB", 0x1080, 0xFF80⟩, ⟨"RRA", 0x1100, 0xFF80⟩, ⟨"SXT", 0x1180, 0xFF80⟩,
   ⟨"PUSH", 0x1200, 0xFF80⟩, ⟨"CALL", 0x1280, 0xFF80⟩, ⟨"RETI", 0x1300, 0xFF80⟩,
   ⟨"unknown__opc1_7", 0x1380, 0xFF80⟩]

/-- R109, the jump shape. -/
def jumpRows : List OpcodeRow :=
  [⟨"JNE", 0x2000, 0xFC00⟩, ⟨"JEQ", 0x2400, 0xFC00⟩, ⟨"JNC", 0x2800, 0xFC00⟩, ⟨"JC", 0x2C00, 0xFC00⟩,
   ⟨"JN", 0x3000, 0xFC00⟩, ⟨"JGE", 0x3400, 0xFC00⟩, ⟨"JL", 0x3800, 0xFC00⟩, ⟨"JMP", 0x3C00, 0xFC00⟩]

/-- R109, the two-operand shape. -/
def twoRows : List OpcodeRow :=
  [⟨"MOV", 0x4000, 0xF000⟩, ⟨"ADD", 0x5000, 0xF000⟩, ⟨"ADDC", 0x6000, 0xF000⟩, ⟨"SUBC", 0x7000, 0xF000⟩,
   ⟨"SUB", 0x8000, 0xF000⟩, ⟨"CMP", 0x9000, 0xF000⟩, ⟨"DADD", 0xA000, 0xF000⟩, ⟨"BIT", 0xB000, 0xF000⟩,
   ⟨"BIC", 0xC000, 0xF000⟩, ⟨"BIS", 0xD000, 0xF000⟩, ⟨"XOR", 0xE000, 0xF000⟩, ⟨"AND", 0xF000, 0xF000⟩,
   ⟨"unknown__opc2_0", 0x0000, 0xF000⟩, ⟨"unknown__opc2_1__words_0x1400-0x17FF", 0x1400, 0xFC00⟩,
   ⟨"unknown__opc2_1__words_0x1800-0x1FFF", 0x1800, 0xF800⟩]

/-- All rows of the opcode map. -/
def opcodeRows : List OpcodeRow :=
  singleRows ++ jumpRows ++ twoRows

/-- An instruction's mnemonic in spec/opcode_table.json. -/
def mnemonic : Instr → String
  | .rrc _ _ => "RRC"
  | .swpb _ _ => "SWPB"
  | .rra _ _ => "RRA"
  | .sxt _ _ => "SXT"
  | .push _ _ => "PUSH"
  | .call _ _ => "CALL"
  | .reti _ => "RETI"
  | .unknownSingle7 _ => "unknown__opc1_7"
  | .jne _ => "JNE"
  | .jeq _ => "JEQ"
  | .jnc _ => "JNC"
  | .jc _ => "JC"
  | .jn _ => "JN"
  | .jge _ => "JGE"
  | .jl _ => "JL"
  | .jmp _ => "JMP"
  | .mov _ _ _ => "MOV"
  | .add _ _ _ => "ADD"
  | .addc _ => "ADDC"
  | .subc _ => "SUBC"
  | .sub _ _ _ => "SUB"
  | .cmp _ _ _ => "CMP"
  | .dadd _ => "DADD"
  | .bit _ => "BIT"
  | .bic _ _ _ => "BIC"
  | .bis _ _ _ => "BIS"
  | .xor _ _ _ => "XOR"
  | .and _ _ _ => "AND"
  | .unknownTwo0 _ => "unknown__opc2_0"
  | .unknownTwo1Low _ => "unknown__opc2_1__words_0x1400-0x17FF"
  | .unknownTwo1High _ => "unknown__opc2_1__words_0x1800-0x1FFF"

/-! ## The host's question -/

/-- The longest instruction is three words (R101). -/
def longestBytes : Nat := 6

/-- The words of a table word: its `nbits` low bits, the first word lowest, zero above, up to the
longest instruction. -/
def tableWords (nbits w : Nat) : List Word :=
  let v : BitVec 48 := BitVec.ofNat 48 (w % 2 ^ nbits)
  [v.extractLsb' 0 16, v.extractLsb' 16 16, v.extractLsb' 32 16]

/-- The instruction `decode` reads from the bytes of a table word as the hardware stores them. -/
def decodeTableWord (nbits w : Nat) : Option Instr :=
  match decode (bytesOfWords (tableWords nbits w)) with
  | .ok (a, _) => some a.instr
  | .error _ => none

end Sys2Proof
end

