-- ==== Sys2Proof/Machine/State.lean ====
section
/-! DEFINITION. The state of the machine, plain data, as spec/10_state.md gives it: sixteen registers
(R20 to R35), the memory (spec/20_memory.md R60) and the run state (R36). "Nothing else persists from one
instruction to the next" (section 1; R38, R39). -/

namespace Sys2Proof.Machine

/-- The two fatal conditions (spec/60_exceptions.md R260). -/
inductive FatalKind where
  /-- "an opcode field value not recognized by any case in the relevant dispatch" (R261). -/
  | unknownOpcode
  /-- "a recognized-but-intentionally-unhandled opcode: ADDC, SUBC, DADD, BIT, RETI" (R263). -/
  | notImplemented
  deriving DecidableEq, Repr

/-- The fault record (R264): the kind, the address the instruction word was fetched from, the word. -/
structure FaultRecord where
  kind : FatalKind
  addr : Word
  word : Word
  deriving DecidableEq, Repr

/-- The run state (R36). A fatal condition is a state of this machine and no end of the model's run: a
step that raises one answers a next state whose run state is `halted` (R262, R275). -/
inductive RunState where
  | running
  | halted (record : FaultRecord)
  deriving DecidableEq, Repr

/-- Memory as the (address, byte) pairs that differ from what power-up leaves, in the canonical form
`Memory.wf` (Machine/Ops.lean); every address 0 to 65535 exists (R60). -/
abbrev Memory := List Host.Cell

/-- The machine's state. `regs` holds R0 to R15, PC, SP and SR among them (R21, R24, R26, R27). -/
structure State where
  regs : Vector Word 16
  mem : Memory
  run : RunState
  deriving DecidableEq, Repr

/-- The reasons a step can stop with a fault: none. "No memory access can raise a fault" (R71), and the
two fatal conditions of the spec are next states in which the run state is `halted` (R262, R275), so no
constructor is needed; a model with none is safe, since no step can end here. -/
inductive Fault where
  deriving DecidableEq, Repr

/-- The reasons for a refusal. No step answers one (R275: "There is no third outcome in the hardware"). -/
inductive Refusal where
  /-- Raised by an arm of `exec` whose instruction has no meaning yet; no arm is such. Safe. -/
  | notModelled (mnemonic : String)
  /-- Raised by the host's `loadImage` for an image longer than the address space, which the spec has a
  model refuse (93 U16, 91 N15). Safe. -/
  | imageTooLong
  /-- Raised by the host's `loadImage` for an image of no bytes: R73 speaks of 1 ≤ L ≤ 65536. Safe. -/
  | imageEmpty
  deriving DecidableEq, Repr

/-- The machine after power-up and `init` (R44): PC is the word at 0xFFFE, which is 0 in memory nobody
has written (R72, R300); SP is SP_INIT (R301; DESIGN CHOICE of its value, log entry 1); SR, R3 and R4 to
R15 are the 0 of power-up (R45, R302; log entry 2); memory lists nothing; the run state is `running`. -/
def State.reset : State where
  regs := #v[0, Config.spInit, 0, 0, 0, 0, 0, 0, 0, 0, 0, 0, 0, 0, 0, 0]
  mem := []
  run := .running

end Sys2Proof.Machine
end

