-- ==== Sys2Proof/Machine/Ops.lean ====
section
/-! DEFINITION. The named operations over memory, registers and the run state that every meaning is
written with: the access primitives of spec/20_memory.md section 2, the raw register accesses of
spec/10_state.md R22, the fetch of a word at PC (R24), the raising of a fatal condition
(spec/60_exceptions.md R262), power-up and `init` (spec/70_reset_and_hazards.md). -/

namespace Sys2Proof.Machine

/-! ## Memory -/

namespace Memory

/-- What an address nobody has written reads as: memory is zero at power-up (R72). -/
def unlisted : Byte := 0#8

/-- The byte stored at an address (R63). -/
def read : Memory → Nat → Byte
  | [], _ => unlisted
  | (k, b) :: m, a => if a = k then b else read m a

/-- Stores one byte, keeping the list sorted and free of entries equal to `unlisted` (R64). -/
def write : Memory → Nat → Byte → Memory
  | [], a, b => if b = unlisted then [] else [(a, b)]
  | (k, c) :: m, a, b =>
    if a < k then (if b = unlisted then (k, c) :: m else (a, b) :: (k, c) :: m)
    else if a = k then (if b = unlisted then m else (a, b) :: m)
    else (k, c) :: write m a b

/-- The canonical form above a lower bound: addresses strictly rising and below 65536, no entry equal to
`unlisted`. -/
def wfFrom : Nat → Memory → Bool
  | _, [] => true
  | lo, (k, b) :: m => decide (lo ≤ k) && decide (k < Config.memSize) && b != unlisted && wfFrom (k + 1) m

/-- The canonical form, in which equal memories are equal lists. -/
def wf (m : Memory) : Bool :=
  wfFrom 0 m

/-- The address after `a`; the address after 0xFFFF is 0x0000 (R66). -/
def next (a : Word) : Word :=
  a + 1#16

/-- `MemRead(a, 1)` (R63). -/
def readByte (m : Memory) (a : Word) : Byte :=
  m.read a.toNat

/-- `MemRead(a, 2)`: low byte at `a`, high byte at the next address, at any `a`, odd ones too (R62, R63,
R65). -/
def readWord (m : Memory) (a : Word) : Word :=
  wordOfBytes (m.readByte a) (m.readByte (next a))

/-- `MemWrite(a, 1, v)` stores `v[7:0]` (R64). -/
def writeByte (m : Memory) (a : Word) (b : Byte) : Memory :=
  m.write a.toNat b

/-- `MemWrite(a, 2, v)` stores `v[7:0]` at `a` and `v[15:8]` at the next address (R64). -/
def writeWord (m : Memory) (a : Word) (v : Word) : Memory :=
  (m.writeByte a (v.extractLsb' 0 8)).writeByte (next a) (v.extractLsb' 8 8)

/-- `MemRead(a, n(bw))`, a byte zero-extended (R63, R67, R150). -/
def load (m : Memory) (bw : Width) (a : Word) : Word :=
  match bw with
  | .word => m.readWord a
  | .byte => (m.readByte a).setWidth 16

/-- `MemWrite(a, n(bw), v)` (R64, R67). -/
def store (m : Memory) (bw : Width) (a : Word) (v : Word) : Memory :=
  match bw with
  | .word => m.writeWord a v
  | .byte => m.writeByte a (v.extractLsb' 0 8)

/-- Stores a list of bytes at consecutive addresses (R73, R101). -/
def writeBytes (m : Memory) (a : Word) : List Byte → Memory
  | [] => m
  | b :: bs => writeBytes (m.writeByte a b) (next a) bs

end Memory

/-! ## Registers -/

namespace State

/-- `x[i]`, the raw read (R22): the stored bits, never a constant. -/
def reg (s : State) (i : Reg) : Word :=
  s.regs[i]

/-- `x[i] <- v`, the raw write (R22): it "stores directly". -/
def setReg (s : State) (i : Reg) (v : Word) : State :=
  { s with regs := s.regs.set i v }

/-- `pc` (R8). -/
abbrev pc (s : State) : Word := s.reg Reg.pc
/-- `sp` (R8). -/
abbrev sp (s : State) : Word := s.reg Reg.sp
/-- `sr` (R8). -/
abbrev sr (s : State) : Word := s.reg Reg.sr
/-- `pc <- v` (R8). -/
abbrev setPc (s : State) (v : Word) : State := s.setReg Reg.pc v
/-- `sp <- v`. -/
abbrev setSp (s : State) (v : Word) : State := s.setReg Reg.sp v
/-- `sr <- v`. -/
abbrev setSr (s : State) (v : Word) : State := s.setReg Reg.sr v

/-- `MemWrite(a, n(bw), v)` on the machine's memory. -/
def store (s : State) (bw : Width) (a : Word) (v : Word) : State :=
  { s with mem := s.mem.store bw a v }

/-! ## Fetching at PC -/

/-- The word at `pc`: an instruction word or an extension word (R24, R61, R67). -/
def fetchWord (s : State) : Word :=
  s.mem.readWord s.pc

/-- `pc <- pc + 2`, past the word just fetched (R24). -/
def advance (s : State) : State :=
  s.setPc (s.pc + 2#16)

/-! ## Fatal conditions -/

/-- `raise kind`, in an instruction whose word is `w` and past which PC has already advanced: the run
state becomes `Halted(kind, A, w)` and nothing else changes; A is `pc` − 2 (R262, R264, R267). No state is
saved, no vector read, PC is not redirected (R266); nothing returns from it but `init` (R269). -/
def raise (kind : FatalKind) (w : Word) (s : State) : State :=
  { s with run := .halted { kind := kind, addr := s.pc - 2#16, word := w } }

/-! ## Power-up and initialisation -/

/-- Power-up, the construction of the machine: memory and all registers 0, `Running` (R45, R72, R303). -/
def powerUp : State where
  regs := Vector.replicate 16 0#16
  mem := []
  run := .running

/-- The command `init`: PC from the reset vector, SP from SP_INIT, `Running`, and nothing else (R300,
R301, R302). It is the only way out of `Halted` (R269). -/
def init (spInit : Word) (s : State) : State :=
  { (s.setPc (s.mem.readWord Config.resetVector)).setSp spInit with run := .running }

end State
end Sys2Proof.Machine
end

