-- ==== Sys2Proof/Machine/Fatal.lean ====
section
/-! DEFINITION. The words that raise a fatal condition: the recognised, unimplemented opcodes
(spec/42_two_operand.md R203, R204, R207, R208; spec/41_single_operand.md R177) and the unknown ones (R178,
R213, R214). Each starts from a state whose PC has passed the word and takes the condition as
spec/60_exceptions.md R262 says: a next state, `Halted`, with nothing else changed. The word in the fault
record is the encoding of the instruction, which is the word it was decoded from. -/

namespace Sys2Proof.Machine

/-- RETI (R177): `raise NotImplemented(RETI)`. -/
def execReti (rest : BitVec 7) (s : State) : Host.Outcome State Fault Refusal :=
  .next (s.raise .notImplemented (encodeWord (.reti rest)))

/-- `opc1` = 7 (R178). -/
def execUnknownSingle7 (rest : BitVec 7) (s : State) : Host.Outcome State Fault Refusal :=
  .next (s.raise .unknownOpcode (encodeWord (.unknownSingle7 rest)))

/-- ADDC (R203): `raise NotImplemented(ADDC)`. -/
def execAddc (rest : BitVec 12) (s : State) : Host.Outcome State Fault Refusal :=
  .next (s.raise .notImplemented (encodeWord (.addc rest)))

/-- SUBC (R204). -/
def execSubc (rest : BitVec 12) (s : State) : Host.Outcome State Fault Refusal :=
  .next (s.raise .notImplemented (encodeWord (.subc rest)))

/-- DADD (R207). -/
def execDadd (rest : BitVec 12) (s : State) : Host.Outcome State Fault Refusal :=
  .next (s.raise .notImplemented (encodeWord (.dadd rest)))

/-- BIT (R208). -/
def execBit (rest : BitVec 12) (s : State) : Host.Outcome State Fault Refusal :=
  .next (s.raise .notImplemented (encodeWord (.bit rest)))

/-- `opc2` = 0 (R213). -/
def execUnknownTwo0 (rest : BitVec 12) (s : State) : Host.Outcome State Fault Refusal :=
  .next (s.raise .unknownOpcode (encodeWord (.unknownTwo0 rest)))

/-- `opc2` = 1, the words 0x1400 to 0x17FF (R214). -/
def execUnknownTwo1Low (rest : BitVec 10) (s : State) : Host.Outcome State Fault Refusal :=
  .next (s.raise .unknownOpcode (encodeWord (.unknownTwo1Low rest)))

/-- `opc2` = 1, the words 0x1800 to 0x1FFF (R214). -/
def execUnknownTwo1High (rest : BitVec 11) (s : State) : Host.Outcome State Fault Refusal :=
  .next (s.raise .unknownOpcode (encodeWord (.unknownTwo1High rest)))

end Sys2Proof.Machine
end

