-- ==== Sys2Proof/Machine/Operands.lean ====
section
/-! DEFINITION. The operand resolver of spec/40_operand_resolution.md: `ResolveSrc`, `ResolveDst`,
`ReadLoc` and `WriteLoc`, with the constant generator of spec/10_state.md R34 and R35. -/

namespace Sys2Proof.Machine

/-! ## Widths -/

/-- `W(bw)` (R8). -/
def widthBits : Width → Nat
  | .word => 16
  | .byte => 8

/-- `mask(bw)` (R8). -/
def mask : Width → Word
  | .word => 0xFFFF#16
  | .byte => 0x00FF#16

/-- `msb(bw)` (R8). -/
def msb : Width → Word
  | .word => 0x8000#16
  | .byte => 0x0080#16

/-! ## Locations -/

/-- What the resolver returns (R9). -/
inductive Loc where
  | reg (i : Reg)
  | mem (a : Word)
  | const (v : Word)
  deriving DecidableEq, Repr

/-- `ReadLoc(loc, bw)` (R150). -/
def readLoc (bw : Width) (loc : Loc) (s : State) : Word :=
  match loc with
  | .reg i => s.reg i &&& mask bw
  | .mem a => s.mem.load bw a
  | .const v => v &&& mask bw

/-- What a write leaves in a register that held `old`: the value in word mode; in byte mode the
zero-extended byte (R151, R153), or the byte under the old high byte if BYTE_REG_WRITE is `preserveHigh`
(93 U8). -/
def regWriteValue (mode : ByteRegWrite) (bw : Width) (old v : Word) : Word :=
  match bw, mode with
  | .word, _ => v
  | .byte, .zeroExtend => v &&& mask .byte
  | .byte, .preserveHigh => (old &&& 0xFF00#16) ||| (v &&& mask .byte)

/-- `WriteLoc(loc, bw, v)` (R151). A write to a constant is dropped. -/
def writeLoc (bw : Width) (loc : Loc) (v : Word) (s : State) : State :=
  match loc with
  | .reg i => s.setReg i (regWriteValue Config.byteRegWrite bw (s.reg i) v)
  | .mem a => s.store bw a (v &&& mask bw)
  | .const _ => s

/-! ## The constant generator -/

/-- `CG_TABLE[reg][mode]` where `IsConst(reg, mode)` holds: register 2 in modes 1 to 3, register 3 in any
mode (R34, R35). -/
def constOf (op : Operand) : Option Word :=
  if op.reg = Reg.sr then
    match op.mode with
    | .register => none
    | .indexed => some 0x0000#16
    | .indirect => some 0x0004#16
    | .autoinc => some 0x0008#16
  else if op.reg = Reg.cg2 then
    match op.mode with
    | .register => some 0x0000#16
    | .indexed => some 0x0001#16
    | .indirect => some 0x0002#16
    | .autoinc => some 0xFFFF#16
  else none

/-! ## The resolvers -/

/-- A resolved location and the state after resolution: an extension word may have been consumed and a
register stepped. -/
structure Resolved where
  loc : Loc
  st : State
  deriving DecidableEq, Repr

/-- The base an index offset is added to, read once PC has moved past the offset word (R144, R147); under
INDEX_PC_BASE `before`, PC as a base counts 2 less (93 U7). -/
def indexBase (base : IndexPcBase) (i : Reg) (s : State) : Word :=
  match base with
  | .after => s.reg i
  | .before => if i = Reg.pc then s.reg i - 2#16 else s.reg i

/-- What an autoincrement adds: 2 in word mode, 1 in byte mode, always 2 to PC (R146). -/
def autoStep (bw : Width) (i : Reg) : Word :=
  if i = Reg.pc then 2#16
  else
    match bw with
    | .word => 2#16
    | .byte => 1#16

/-- `ResolveSrc(reg, mode, bw)` (R141, R142): the source of a two-operand instruction, the operand of a
single-operand one. -/
def resolveSrc (bw : Width) (op : Operand) (s : State) : Resolved :=
  match constOf op with
  | some v => { loc := .const v, st := s }
  | none =>
    match op.mode with
    | .register => { loc := .reg op.reg, st := s }
    | .indexed =>
      { loc := .mem (s.fetchWord + indexBase Config.indexPcBase op.reg s.advance), st := s.advance }
    | .indirect => { loc := .mem (s.reg op.reg), st := s }
    | .autoinc =>
      { loc := .mem (s.reg op.reg), st := s.setReg op.reg (s.reg op.reg + autoStep bw op.reg) }

/-- `ResolveDst(reg, Ad)` (R147): register 2 in memory mode is absolute (R148); a destination never goes
through the constant generator (R149). -/
def resolveDst (dst : Dest) (s : State) : Resolved :=
  match dst.mode with
  | .register => { loc := .reg dst.reg, st := s }
  | .memory =>
    { loc := .mem (if dst.reg = Reg.sr then s.fetchWord
                   else s.fetchWord + indexBase Config.indexPcBase dst.reg s.advance),
      st := s.advance }

/-- Stages (d) and (e) of R140 for two operands: the source resolved and read, then the destination
resolved. -/
structure TwoOperands where
  /-- The source's value `s`, read before the destination is resolved (R157). -/
  src : Word
  /-- The destination's location. -/
  loc : Loc
  /-- The state after both resolutions. -/
  st : State
  deriving DecidableEq, Repr

/-- The common path of the two-operand instructions (R200). -/
def resolveTwo (bw : Width) (src : Operand) (dst : Dest) (s : State) : TwoOperands :=
  let rs := resolveSrc bw src s
  let rd := resolveDst dst rs.st
  { src := readLoc bw rs.loc rs.st, loc := rd.loc, st := rd.st }

/-- The destination's value `d` (R200). -/
def TwoOperands.dst (bw : Width) (o : TwoOperands) : Word :=
  readLoc bw o.loc o.st

end Sys2Proof.Machine
end

