-- ==== Sys2Proof/Machine/Flags.lean ====
section
/-! DEFINITION. The four flags of SR with their accessors (spec/10_state.md R28, R29), `updateZN`
(spec/40_operand_resolution.md R152), and for every instruction that computes, its result with the carry
and overflow it sets (spec/41_single_operand.md, spec/42_two_operand.md). -/

namespace Sys2Proof.Machine

/-! ## Flag accessors -/

/-- The flags of SR (R28). -/
inductive Flag where
  | C
  | Z
  | N
  | V
  deriving DecidableEq, Repr

/-- The bit of SR that holds a flag (R28). -/
def Flag.pos : Flag → Nat
  | .C => 0
  | .Z => 1
  | .N => 2
  | .V => 8

/-- `(sr & ~(1 << pos)) | (b << pos)` (R29). -/
def putBit (w : Word) (pos : Nat) (b : Bool) : Word :=
  (w &&& ~~~(1#16 <<< pos)) ||| ((BitVec.ofBool b).setWidth 16 <<< pos)

/-- `sr.F` (R28). -/
def State.flag (s : State) (f : Flag) : Bool :=
  s.sr.getLsbD f.pos

/-- `sr.F <- b` (R29). -/
def State.setFlag (s : State) (f : Flag) (b : Bool) : State :=
  s.setSr (putBit s.sr f.pos b)

/-! ## Results -/

/-- The sign bit of a value at a width: bit 15, bit 7 in byte mode (R152). -/
def signBit (bw : Width) (v : Word) : Bool :=
  match bw with
  | .word => v.getLsbD 15
  | .byte => v.getLsbD 7

/-- `updateZN(v, bw)` (R152). -/
def updateZN (bw : Width) (v : Word) (s : State) : State :=
  (s.setFlag .Z (v == 0#16)).setFlag .N (signBit bw v)

/-- A result with the carry and the overflow the instruction sets; Z and N follow from the result. -/
structure AluResult where
  result : Word
  carry : Bool
  overflow : Bool
  deriving DecidableEq, Repr

/-- C, then V, then `updateZN` (R171, R202 and the rules beside them). -/
def writeFlags (bw : Width) (o : AluResult) (s : State) : State :=
  updateZN bw o.result ((s.setFlag .C o.carry).setFlag .V o.overflow)

/-- Stages (f) and (g) of R140: the flags first, the write-back second, so that a write-back to SR wins
(R32, R216). -/
def commit (bw : Width) (loc : Loc) (o : AluResult) (s : State) : State :=
  writeLoc bw loc o.result (writeFlags bw o s)

/-! ## Rotates, swap, sign extension -/

/-- RRC (R171): `c_in` goes to the sign position, the vacated low bit to C. -/
def rrcResult (bw : Width) (cin : Bool) (v : Word) : AluResult where
  result := ((BitVec.ofBool cin).setWidth 16 <<< (widthBits bw - 1)) ||| (v >>> 1)
  carry := v.getLsbD 0
  overflow := false

/-- `SWPB_FN(v)`, the exchange of the two bytes (R172; 93 U3). -/
def swpbFn (v : Word) : Word :=
  (v <<< 8) ||| (v >>> 8)

/-- The carry after RRA: bit 0 of the operand if RRA_SETS_C, else what it was (R173; 93 U2). -/
def rraCarry (setsC : Bool) (old : Bool) (v : Word) : Bool :=
  if setsC then v.getLsbD 0 else old

/-- RRA (R173): the sign bit stays. -/
def rraResult (bw : Width) (old : Bool) (v : Word) : AluResult where
  result := (v &&& msb bw) ||| (v >>> 1)
  carry := rraCarry Config.rraSetsC old v
  overflow := false

/-- SXT (R174): `sext_8(v[7:0])`; C is "result nonzero". -/
def sxtResult (v : Word) : AluResult :=
  let r := (v.extractLsb' 0 8).signExtend 16
  { result := r, carry := r != 0#16, overflow := false }

/-! ## Arithmetic -/

/-- The sum of a source, a destination and a carry-in at a width: `t` exact, C from `t > mask`, V when the
addends agree in sign and the result does not (R202, R205). -/
def sumResult (bw : Width) (a d : Word) (cin : Nat) : AluResult :=
  let t := a.toNat + d.toNat + cin
  let r := BitVec.ofNat 16 t &&& mask bw
  { result := r
    carry := decide (t > (mask bw).toNat)
    overflow := (a &&& msb bw) == (d &&& msb bw) && (r &&& msb bw) != (d &&& msb bw) }

/-- ADD (R202). -/
def addResult (bw : Width) (s d : Word) : AluResult :=
  sumResult bw s d 0

/-- SUB and CMP (R205, R206): the one's complement of the source, plus the destination, plus one. -/
def subResult (bw : Width) (s d : Word) : AluResult :=
  sumResult bw (~~~s &&& mask bw) d 1

/-! ## Logic -/

/-- BIC (R209). -/
def bicResult (bw : Width) (s d : Word) : Word :=
  d &&& ~~~s &&& mask bw

/-- BIS (R210). -/
def bisResult (bw : Width) (s d : Word) : Word :=
  (d ||| s) &&& mask bw

/-- XOR (R211): V when both operands are negative, C when the result is nonzero. -/
def xorResult (bw : Width) (s d : Word) : AluResult :=
  let r := (d ^^^ s) &&& mask bw
  { result := r
    carry := r != 0#16
    overflow := (s &&& msb bw) != 0#16 && (d &&& msb bw) != 0#16 }

/-- AND (R212): C when the result is nonzero, V cleared. -/
def andResult (bw : Width) (s d : Word) : AluResult :=
  let r := d &&& s &&& mask bw
  { result := r, carry := r != 0#16, overflow := false }

end Sys2Proof.Machine
end

