-- ==== Sys2Proof/Machine/Jump.lean ====
section
/-! DEFINITION. The eight jumps (spec/43_jump.md R240 to R249). Each meaning starts from a state whose PC
has passed the jump's one word (R240). A jump reads SR and writes PC, and nothing else. -/

namespace Sys2Proof.Machine

/-- The displacement in bytes: `2 * sext_10(off10)` modulo 2^16 (R108, R240). -/
def jumpOffset (off : BitVec 10) : Word :=
  off.signExtend 16 <<< 1

/-- `if taken then pc <- (pc + 2 * sext_10(off10)) mod 2^16` (R240). -/
def jumpIf (taken : Bool) (off : BitVec 10) (s : State) : State :=
  if taken then s.setPc (s.pc + jumpOffset off) else s

/-- JNE, taken iff Z = 0 (R241). -/
def execJne (off : BitVec 10) (s : State) : Host.Outcome State Fault Refusal :=
  .next (jumpIf (!s.flag .Z) off s)

/-- JEQ, taken iff Z = 1 (R242). -/
def execJeq (off : BitVec 10) (s : State) : Host.Outcome State Fault Refusal :=
  .next (jumpIf (s.flag .Z) off s)

/-- JNC, taken iff C = 0 (R243). -/
def execJnc (off : BitVec 10) (s : State) : Host.Outcome State Fault Refusal :=
  .next (jumpIf (!s.flag .C) off s)

/-- JC, taken iff C = 1 (R244). -/
def execJc (off : BitVec 10) (s : State) : Host.Outcome State Fault Refusal :=
  .next (jumpIf (s.flag .C) off s)

/-- JN, taken iff N = 1 (R245). -/
def execJn (off : BitVec 10) (s : State) : Host.Outcome State Fault Refusal :=
  .next (jumpIf (s.flag .N) off s)

/-- JGE, taken iff N xor V = 0 (R246). -/
def execJge (off : BitVec 10) (s : State) : Host.Outcome State Fault Refusal :=
  .next (jumpIf (!(s.flag .N ^^ s.flag .V)) off s)

/-- JL, taken iff N xor V = 1 (R247). -/
def execJl (off : BitVec 10) (s : State) : Host.Outcome State Fault Refusal :=
  .next (jumpIf (s.flag .N ^^ s.flag .V) off s)

/-- JMP, always taken (R248). -/
def execJmp (off : BitVec 10) (s : State) : Host.Outcome State Fault Refusal :=
  .next (jumpIf true off s)

end Sys2Proof.Machine
end

