-- ==== Sys2Proof/Machine/SingleOperand.lean ====
section
/-! DEFINITION. The single-operand instructions that execute: RRC, SWPB, RRA, SXT, PUSH, CALL
(spec/41_single_operand.md R170 to R176, R179, R180). Each meaning starts from a state whose PC has passed
the instruction word (R170). RRC, SWPB, RRA and SXT write their result to the operand's location, PC in
mode 0 among the locations (R171 to R174, R151; log entry 23). -/

namespace Sys2Proof.Machine

/-- RRC (R171). -/
def execRrc (bw : Width) (op : Operand) (s : State) : Host.Outcome State Fault Refusal :=
  let r := resolveSrc bw op s
  .next (commit bw r.loc (rrcResult bw (r.st.flag .C) (readLoc bw r.loc r.st)) r.st)

/-- SWPB (R172): no flag changes. -/
def execSwpb (bw : Width) (op : Operand) (s : State) : Host.Outcome State Fault Refusal :=
  let r := resolveSrc bw op s
  .next (writeLoc bw r.loc (swpbFn (readLoc bw r.loc r.st)) r.st)

/-- RRA (R173). -/
def execRra (bw : Width) (op : Operand) (s : State) : Host.Outcome State Fault Refusal :=
  let r := resolveSrc bw op s
  .next (commit bw r.loc (rraResult bw (r.st.flag .C) (readLoc bw r.loc r.st)) r.st)

/-- SXT (R174). -/
def execSxt (bw : Width) (op : Operand) (s : State) : Host.Outcome State Fault Refusal :=
  let r := resolveSrc bw op s
  .next (commit bw r.loc (sxtResult (readLoc bw r.loc r.st)) r.st)

/-- SP moves down by 2 before the operand of PUSH or CALL is resolved (R140 stage (c), R155, R170). -/
def resolveStackOperand (bw : Width) (op : Operand) (s : State) : Resolved :=
  resolveSrc bw op (s.setSp (s.sp - 2#16))

/-- PUSH (R175): the value at the operation's width, at SP as it stands when the write happens (R155). -/
def execPush (bw : Width) (op : Operand) (s : State) : Host.Outcome State Fault Refusal :=
  let r := resolveStackOperand bw op s
  .next (r.st.store bw r.st.sp (readLoc bw r.loc r.st))

/-- The return address of CALL: PC after all operand words (R176); after the instruction word alone if
CALL_PUSHES is `afterOpcodeWord` (93 U4). -/
def returnAddress (pushes : CallPushes) (afterWord afterAll : Word) : Word :=
  match pushes with
  | .afterOperands => afterAll
  | .afterOpcodeWord => afterWord

/-- CALL (R176): the return address is always a word; then PC takes the operand's value. -/
def execCall (bw : Width) (op : Operand) (s : State) : Host.Outcome State Fault Refusal :=
  let r := resolveStackOperand bw op s
  let pushed := r.st.store .word r.st.sp (returnAddress Config.callPushes s.pc r.st.pc)
  .next (pushed.setPc (readLoc bw r.loc r.st))

end Sys2Proof.Machine
end

