-- ==== Sys2Proof/Machine/TwoOperand.lean ====
section
/-! DEFINITION. The two-operand instructions that execute: MOV, ADD, SUB, CMP, BIC, BIS, XOR, AND
(spec/42_two_operand.md R200 to R202, R205, R206, R209 to R212, R215 to R217). Each meaning starts from a
state whose PC has passed the instruction word (R200). -/

namespace Sys2Proof.Machine

/-- MOV (R201): the destination is written and not read; no flag changes. -/
def execMov (bw : Width) (src : Operand) (dst : Dest) (s : State) : Host.Outcome State Fault Refusal :=
  let o := resolveTwo bw src dst s
  .next (writeLoc bw o.loc o.src o.st)

/-- ADD (R202). -/
def execAdd (bw : Width) (src : Operand) (dst : Dest) (s : State) : Host.Outcome State Fault Refusal :=
  let o := resolveTwo bw src dst s
  .next (commit bw o.loc (addResult bw o.src (o.dst bw)) o.st)

/-- SUB (R205): destination minus source. -/
def execSub (bw : Width) (src : Operand) (dst : Dest) (s : State) : Host.Outcome State Fault Refusal :=
  let o := resolveTwo bw src dst s
  .next (commit bw o.loc (subResult bw o.src (o.dst bw)) o.st)

/-- CMP (R206): the flags of SUB and no write-back. -/
def execCmp (bw : Width) (src : Operand) (dst : Dest) (s : State) : Host.Outcome State Fault Refusal :=
  let o := resolveTwo bw src dst s
  .next (writeFlags bw (subResult bw o.src (o.dst bw)) o.st)

/-- BIC (R209): no flag changes by the instruction's rule. -/
def execBic (bw : Width) (src : Operand) (dst : Dest) (s : State) : Host.Outcome State Fault Refusal :=
  let o := resolveTwo bw src dst s
  .next (writeLoc bw o.loc (bicResult bw o.src (o.dst bw)) o.st)

/-- BIS (R210): no flag changes by the instruction's rule. -/
def execBis (bw : Width) (src : Operand) (dst : Dest) (s : State) : Host.Outcome State Fault Refusal :=
  let o := resolveTwo bw src dst s
  .next (writeLoc bw o.loc (bisResult bw o.src (o.dst bw)) o.st)

/-- XOR (R211). -/
def execXor (bw : Width) (src : Operand) (dst : Dest) (s : State) : Host.Outcome State Fault Refusal :=
  let o := resolveTwo bw src dst s
  .next (commit bw o.loc (xorResult bw o.src (o.dst bw)) o.st)

/-- AND (R212). -/
def execAnd (bw : Width) (src : Operand) (dst : Dest) (s : State) : Host.Outcome State Fault Refusal :=
  let o := resolveTwo bw src dst s
  .next (commit bw o.loc (andResult bw o.src (o.dst bw)) o.st)

end Sys2Proof.Machine
end

