-- ==== Sys2Proof/Machine/Dispatch.lean ====
section
/-! DEFINITION. One arm per instruction: which meaning runs it (spec/41_single_operand.md R170,
spec/42_two_operand.md R200, spec/43_jump.md R240). -/

namespace Sys2Proof.Machine

/-- Executes one instruction from a state whose PC has passed the instruction word. -/
def exec (i : Instr) (s : State) : Host.Outcome State Fault Refusal :=
  match i with
  | .rrc bw op => Sys2Proof.Machine.execRrc bw op s
  | .swpb bw op => Sys2Proof.Machine.execSwpb bw op s
  | .rra bw op => Sys2Proof.Machine.execRra bw op s
  | .sxt bw op => Sys2Proof.Machine.execSxt bw op s
  | .push bw op => Sys2Proof.Machine.execPush bw op s
  | .call bw op => Sys2Proof.Machine.execCall bw op s
  | .reti rest => Sys2Proof.Machine.execReti rest s
  | .unknownSingle7 rest => Sys2Proof.Machine.execUnknownSingle7 rest s
  | .jne off => Sys2Proof.Machine.execJne off s
  | .jeq off => Sys2Proof.Machine.execJeq off s
  | .jnc off => Sys2Proof.Machine.execJnc off s
  | .jc off => Sys2Proof.Machine.execJc off s
  | .jn off => Sys2Proof.Machine.execJn off s
  | .jge off => Sys2Proof.Machine.execJge off s
  | .jl off => Sys2Proof.Machine.execJl off s
  | .jmp off => Sys2Proof.Machine.execJmp off s
  | .mov bw src dst => Sys2Proof.Machine.execMov bw src dst s
  | .add bw src dst => Sys2Proof.Machine.execAdd bw src dst s
  | .addc rest => Sys2Proof.Machine.execAddc rest s
  | .subc rest => Sys2Proof.Machine.execSubc rest s
  | .sub bw src dst => Sys2Proof.Machine.execSub bw src dst s
  | .cmp bw src dst => Sys2Proof.Machine.execCmp bw src dst s
  | .dadd rest => Sys2Proof.Machine.execDadd rest s
  | .bit rest => Sys2Proof.Machine.execBit rest s
  | .bic bw src dst => Sys2Proof.Machine.execBic bw src dst s
  | .bis bw src dst => Sys2Proof.Machine.execBis bw src dst s
  | .xor bw src dst => Sys2Proof.Machine.execXor bw src dst s
  | .and bw src dst => Sys2Proof.Machine.execAnd bw src dst s
  | .unknownTwo0 rest => Sys2Proof.Machine.execUnknownTwo0 rest s
  | .unknownTwo1Low rest => Sys2Proof.Machine.execUnknownTwo1Low rest s
  | .unknownTwo1High rest => Sys2Proof.Machine.execUnknownTwo1High rest s

end Sys2Proof.Machine
end

