-- ==== Sys2Proof/Machine/Step.lean ====
section
/-! DEFINITION. One step of the core (spec/60_exceptions.md R275, R276) and the placing of an instruction
where the next step fetches it. -/

namespace Sys2Proof.Machine

/-- "Fetch the word at PC, classify it, execute it": the word at PC is read, PC passes it, the decoded
instruction runs (R275). In `Halted` a step does nothing (R276). -/
def step (s : State) : Host.Outcome State Fault Refusal :=
  match s.run with
  | .running => exec (decodeWord s.fetchWord) s.advance
  | .halted _ => .next s

/-- `s` with a table word's instruction and the zero words after it stored at PC, and running, so that the
very next step fetches and runs it. It stands for a program placed from outside (R286; log entry 3). -/
def State.withFetchWord (s : State) (nbits w : Nat) : State :=
  { s with mem := s.mem.writeBytes s.pc (bytesOfWords (tableWords nbits w)), run := .running }

end Sys2Proof.Machine
end

