-- ==== Sys2Proof/Machine/Assembler.lean ====
section
/-! DEFINITION. The assembler's view of the instructions, spec/30_encoding.md section 6 (R114 to R116): how
an operand is written, what it assembles to, and the pseudo-instructions. It is the family's convention
(92 D28) and no meaning depends on it; the encodings are what is normative. -/

namespace Sys2Proof.Machine.Assembler

/-! ## Operands (R115) -/

/-- An operand in the source position or of a single-operand instruction. -/
inductive SrcSyntax where
  /-- `Rn`. -/
  | reg (n : Reg)
  /-- `X(Rn)`. -/
  | indexed (x : Word) (n : Reg)
  /-- `@Rn`. -/
  | indirect (n : Reg)
  /-- `@Rn+`. -/
  | autoinc (n : Reg)
  /-- `#N`. -/
  | immediate (v : Word)
  /-- `&A`: "the constant 0; the word A is not consumed and is executed as the next instruction". -/
  | absolute (a : Word)
  /-- `label`: mode 1 on PC. -/
  | symbolic (target : Word)
  deriving DecidableEq, Repr

/-- An operand in the destination position. -/
inductive DstSyntax where
  | reg (n : Reg)
  | indexed (x : Word) (n : Reg)
  | absolute (a : Word)
  | symbolic (target : Word)
  deriving DecidableEq, Repr

/-- The constants an immediate is spelled with instead of an extension word: `#0`, `#1`, `#2`, `#-1`, `#4`,
`#8`. -/
def constantOperand (v : Word) : Option Operand :=
  if v = 0x0000#16 then some ⟨Reg.cg2, .register⟩
  else if v = 0x0001#16 then some ⟨Reg.cg2, .indexed⟩
  else if v = 0x0002#16 then some ⟨Reg.cg2, .indirect⟩
  else if v = 0xFFFF#16 then some ⟨Reg.cg2, .autoinc⟩
  else if v = 0x0004#16 then some ⟨Reg.sr, .indirect⟩
  else if v = 0x0008#16 then some ⟨Reg.sr, .autoinc⟩
  else none

/-- The offset word at `at_` that makes mode 1 on PC address `target` on this core: the base is the address
after the offset word. -/
def symbolicOffset (at_ target : Word) : Word :=
  target - (at_ + 2#16)

/-- The fields of a source operand. -/
def SrcSyntax.operand : SrcSyntax → Operand
  | .reg n => ⟨n, .register⟩
  | .indexed _ n => ⟨n, .indexed⟩
  | .indirect n => ⟨n, .indirect⟩
  | .autoinc n => ⟨n, .autoinc⟩
  | .immediate v => (constantOperand v).getD ⟨Reg.pc, .autoinc⟩
  | .absolute _ => ⟨Reg.sr, .indexed⟩
  | .symbolic _ => ⟨Reg.pc, .indexed⟩

/-- The words written after the instruction word for a source operand, the first of them at `at_`. -/
def SrcSyntax.ext (at_ : Word) : SrcSyntax → List Word
  | .reg _ | .indirect _ | .autoinc _ => []
  | .indexed x _ => [x]
  | .immediate v => if (constantOperand v).isSome then [] else [v]
  | .absolute a => [a]
  | .symbolic target => [symbolicOffset at_ target]

/-- The fields of a destination operand. -/
def DstSyntax.dest : DstSyntax → Dest
  | .reg n => ⟨n, .register⟩
  | .indexed _ n => ⟨n, .memory⟩
  | .absolute _ => ⟨Reg.sr, .memory⟩
  | .symbolic _ => ⟨Reg.pc, .memory⟩

/-- The word written for a destination operand, at `at_`. -/
def DstSyntax.ext (at_ : Word) : DstSyntax → List Word
  | .reg _ => []
  | .indexed x _ => [x]
  | .absolute a => [a]
  | .symbolic target => [symbolicOffset at_ target]

/-- A destination written again in the source position, for `RLA` and `RLC`. -/
def DstSyntax.asSource : DstSyntax → SrcSyntax
  | .reg n => .reg n
  | .indexed x n => .indexed x n
  | .absolute a => .absolute a
  | .symbolic target => .symbolic target

/-! ## Instructions (R114) -/

/-- A single-operand instruction at `at_`. -/
def single (mk : Operand → Instr) (at_ : Word) (src : SrcSyntax) : Assembled :=
  { instr := mk src.operand, ext := src.ext (at_ + 2#16) }

/-- A two-operand instruction at `at_`: source before destination. -/
def two (mk : Operand → Dest → Instr) (at_ : Word) (src : SrcSyntax) (dst : DstSyntax) : Assembled :=
  let words := src.ext (at_ + 2#16)
  { instr := mk src.operand dst.dest
    ext := words ++ dst.ext (at_ + 2#16 + BitVec.ofNat 16 (2 * words.length)) }

/-- "`off10 = (target - (address of the jump + 2)) / 2`". -/
def jumpTo (at_ target : Word) : BitVec 10 :=
  (target - (at_ + 2#16)).extractLsb' 1 10

/-! ## Pseudo-instructions (R116) -/

/-- The pseudo-instructions of the table; a width is that of the mnemonic's suffix (R114). -/
inductive Pseudo where
  | nop
  | ret
  | pop (bw : Width) (dst : DstSyntax)
  | br (src : SrcSyntax)
  | clr (bw : Width) (dst : DstSyntax)
  | inc (bw : Width) (dst : DstSyntax)
  | incd (bw : Width) (dst : DstSyntax)
  | dec (bw : Width) (dst : DstSyntax)
  | decd (bw : Width) (dst : DstSyntax)
  | tst (bw : Width) (dst : DstSyntax)
  | inv (bw : Width) (dst : DstSyntax)
  | rla (bw : Width) (dst : DstSyntax)
  | setc
  | setz
  | setn
  | eint
  | clrc
  | clrz
  | clrn
  | dint
  /-- `RLC`, `ADC`, `SBC`, `DADC` expand to instructions that halt. -/
  | rlc (bw : Width) (dst : DstSyntax)
  | adc (bw : Width) (dst : DstSyntax)
  | sbc (bw : Width) (dst : DstSyntax)
  | dadc (bw : Width) (dst : DstSyntax)
  deriving DecidableEq, Repr

/-- The low twelve bits of a two-operand word (R104), of an instruction that halts. -/
def twoFields (bw : Width) (src : SrcSyntax) (dst : DstSyntax) : BitVec 12 :=
  (twoWord 0#4 bw src.operand dst.dest).setWidth 12

/-- A halting two-operand instruction as it stands in memory: its operand words are written and never
consumed (R113), so they are no part of the instruction the core runs. -/
def halting (mk : BitVec 12 → Instr) (bw : Width) (src : SrcSyntax) (dst : DstSyntax) : Assembled :=
  { instr := mk (twoFields bw src dst), ext := [] }

/-- What a pseudo-instruction at `at_` expands to. -/
def Pseudo.expand (at_ : Word) : Pseudo → Assembled
  | .nop => two (.mov .word) at_ (.immediate 0) (.reg Reg.cg2)
  | .ret => two (.mov .word) at_ (.autoinc Reg.sp) (.reg Reg.pc)
  | .pop bw dst => two (.mov bw) at_ (.autoinc Reg.sp) dst
  | .br src => two (.mov .word) at_ src (.reg Reg.pc)
  | .clr bw dst => two (.mov bw) at_ (.immediate 0) dst
  | .inc bw dst => two (.add bw) at_ (.immediate 1) dst
  | .incd bw dst => two (.add bw) at_ (.immediate 2) dst
  | .dec bw dst => two (.sub bw) at_ (.immediate 1) dst
  | .decd bw dst => two (.sub bw) at_ (.immediate 2) dst
  | .tst bw dst => two (.cmp bw) at_ (.immediate 0) dst
  | .inv bw dst => two (.xor bw) at_ (.immediate 0xFFFF) dst
  | .rla bw dst => two (.add bw) at_ dst.asSource dst
  | .setc => two (.bis .word) at_ (.immediate 1) (.reg Reg.sr)
  | .setz => two (.bis .word) at_ (.immediate 2) (.reg Reg.sr)
  | .setn => two (.bis .word) at_ (.immediate 4) (.reg Reg.sr)
  | .eint => two (.bis .word) at_ (.immediate 8) (.reg Reg.sr)
  | .clrc => two (.bic .word) at_ (.immediate 1) (.reg Reg.sr)
  | .clrz => two (.bic .word) at_ (.immediate 2) (.reg Reg.sr)
  | .clrn => two (.bic .word) at_ (.immediate 4) (.reg Reg.sr)
  | .dint => two (.bic .word) at_ (.immediate 8) (.reg Reg.sr)
  | .rlc bw dst => halting .addc bw dst.asSource dst
  | .adc bw dst => halting .addc bw (.immediate 0) dst
  | .sbc bw dst => halting .subc bw (.immediate 0) dst
  | .dadc bw dst => halting .dadd bw (.immediate 0) dst

end Sys2Proof.Machine.Assembler
end

