-- ==== Sys2Proof/Machine/HostAccess.lean ====
section
/-! DEFINITION. What the host can do to the core between steps: the interface table of
spec/60_exceptions.md R286 (spec/10_state.md R41, R42; spec/20_memory.md R73, R77). `init` stands in
Machine/Ops.lean and `step` in Machine/Step.lean; there is no host move during a step (R77, 93 U15). -/

namespace Sys2Proof.Machine.State

/-- Load an image: its last byte lands at 0xFFFF, byte `i` at `65536 - L + i`; the bytes before it are
untouched (R73). An image outside 1 ≤ L ≤ 65536 is refused (93 U16). -/
def loadImage (image : List Byte) (s : State) : Host.Outcome State Fault Refusal :=
  if image.length = 0 then .refused .imageEmpty
  else if image.length > Config.memSize then .refused .imageTooLong
  else .next { s with mem := s.mem.writeBytes (BitVec.ofNat 16 (Config.memSize - image.length)) image }

/-- Poke a memory byte or word: `MemWrite` (R286). -/
def pokeMem (bw : Width) (a v : Word) (s : State) : State :=
  s.store bw a v

/-- Peek a memory byte or word: `MemRead` (R286). -/
def peekMem (bw : Width) (a : Word) (s : State) : Word :=
  s.mem.load bw a

/-- Poke a register, any of the sixteen, raw (R286). -/
def pokeReg (i : Reg) (v : Word) (s : State) : State :=
  s.setReg i v

/-- Peek a register, raw: R3 reads as its stored bits (R286). -/
def peekReg (i : Reg) (s : State) : Word :=
  s.reg i

/-- The status output: the run state (R41, R286). -/
def status (s : State) : RunState :=
  s.run

end Sys2Proof.Machine.State
end

