-- ==== Sys2Proof/Machine/Driver.lean ====
section
/-! DEFINITION. The host that drives the core: the tick scheduler of spec/60_exceptions.md section 5 (R280
to R285) with its busy guard, mode, timer, breakpoints and observers (spec/10_state.md R37, R43). None of
this is core state and no program can observe it; it is here because "a model of a whole run needs the
driver". -/

namespace Sys2Proof.Machine

/-- The scheduler's mode (R37). -/
inductive DriverMode where
  | normal
  | verbose
  deriving DecidableEq, Repr

/-- The driver's own state (R37, R282, R283) beside the core it drives. Observers are callbacks of the host;
the model knows each by a number and records that it was called. -/
structure Driver where
  core : State
  busy : Bool
  mode : DriverMode
  timerRunning : Bool
  /-- "an ordered collection of addresses" (R282). -/
  breakpoints : List Word
  /-- Registration order (R283). -/
  observers : List Nat
  deriving DecidableEq, Repr

/-- What a tick shows to the outside. -/
inductive DriverEvent where
  /-- Verbose mode prints the full register state (R280): PC, SP, SR as a bit string, R3, and R4 to R15 (R284). -/
  | printed (pc sp : Word) (sr : List Bool) (cg2 : Word) (general : List Word)
  /-- The fault is reported (R280). -/
  | reported (record : FaultRecord)
  /-- An observer is given the machine state (R283). -/
  | observed (observer : Nat) (state : State)
  deriving DecidableEq, Repr

namespace Driver

/-- "the full register state" (R280): the registers R284 names, SR from bit 15 down, and R3 at its stored bits
(DEDUCED, log entry 18). -/
def printout (s : State) : DriverEvent :=
  .printed s.pc s.sp ((List.range 16).reverse.map fun i => s.sr.getLsbD i) (s.reg Reg.cg2) (s.regs.toList.drop 4)

/-- The fault a step raised: it began running and ended halted (R262, R275). -/
def raised (before after : State) : Option FaultRecord :=
  match before.run, after.run with
  | .running, .halted record => some record
  | _, _ => none

/-- The core after one step. A step of this core always answers a next state (R275). -/
def stepCore (s : State) : State :=
  match step s with
  | .next t => t
  | .fault _ => s
  | .refused _ => s

/-- A breakpoint hit: verbose mode, timer stopped; the instruction there still executes in this tick
(R280, R282). -/
def checkBreakpoint (d : Driver) : Driver :=
  if d.breakpoints.contains d.core.pc then { d with mode := .verbose, timerRunning := false } else d

/-- One tick (R280). A tick that finds the busy guard set is dropped entirely (R281). -/
def tick (d : Driver) : Driver × List DriverEvent :=
  if d.busy then (d, [])
  else
    let d := d.checkBreakpoint
    let shown := if d.mode = .verbose then [printout d.core] else []
    let after := stepCore d.core
    match raised d.core after with
    | some record => ({ d with core := after, timerRunning := false }, shown ++ [.reported record])
    | none => ({ d with core := after }, shown ++ d.observers.map fun o => .observed o after)

/-- "Registration accepts an address" (R282). -/
def addBreakpoint (a : Word) (d : Driver) : Driver :=
  { d with breakpoints := d.breakpoints ++ [a] }

/-- Registers an observer after those registered before it (R283). -/
def addObserver (o : Nat) (d : Driver) : Driver :=
  { d with observers := d.observers ++ [o] }

/-- `start` controls the timer and changes no core state (R285). -/
def start (d : Driver) : Driver :=
  { d with timerRunning := true }

/-- `stop` (R285). -/
def stop (d : Driver) : Driver :=
  { d with timerRunning := false }

end Driver
end Sys2Proof.Machine
end

