-- ==== Sys2Proof/Safety.lean ====
section
/-! DEFINITION. The terms the claims are stated in: which instructions are fatal, what a halted machine
looks like, the invariant every step keeps, what an operand touches and what a location stores. -/

namespace Sys2Proof.Safety

open Sys2Proof.Machine

/-- The fatal condition an instruction raises, if any (spec/60_exceptions.md R261, R263). -/
def fatalKind : Instr → Option FatalKind
  | .reti _ | .addc _ | .subc _ | .dadd _ | .bit _ => some .notImplemented
  | .unknownSingle7 _ | .unknownTwo0 _ | .unknownTwo1Low _ | .unknownTwo1High _ => some .unknownOpcode
  | .rrc _ _ | .swpb _ _ | .rra _ _ | .sxt _ _ | .push _ _ | .call _ _ => none
  | .jne _ | .jeq _ | .jnc _ | .jc _ | .jn _ | .jge _ | .jl _ | .jmp _ => none
  | .mov _ _ _ | .add _ _ _ | .sub _ _ _ | .cmp _ _ _ => none
  | .bic _ _ _ | .bis _ _ _ | .xor _ _ _ | .and _ _ _ => none

/-- A halted machine stands two bytes past the failing word, and the record's kind is the one its word
raises (R262, R264, R267). -/
def haltConsistent (s : State) : Bool :=
  match s.run with
  | .running => true
  | .halted r => s.pc == r.addr + 2#16 && fatalKind (decodeWord r.word) == some r.kind

/-- The invariant every step keeps: memory in its canonical form and a consistent halt. -/
def inv (s : State) : Bool :=
  s.mem.wf && haltConsistent s

/-- A run is safe while the core runs (R291): no fatal condition has been raised. -/
def safe (s : State) : Bool :=
  s.run == .running

/-- The register an operand steps, PC excepted (R146). Register 2 and register 3 never step: in mode 3
they are constants (R141). -/
def steps (op : Operand) : Option Reg :=
  if op.mode = .autoinc ∧ op.reg ≠ Reg.pc ∧ op.reg ≠ Reg.sr ∧ op.reg ≠ Reg.cg2 then some op.reg else none

/-- The addresses a write of a width to a location stores to: none for a register or a constant; one byte
or two, the second wrapping at the top (R64, R66, R151). -/
def storedBytes (bw : Width) : Loc → List Nat
  | .reg _ | .const _ => []
  | .mem a =>
    match bw with
    | .byte => [a.toNat]
    | .word => [a.toNat, (a + 1#16).toNat]

/-- A location holds a value after a write of a width: a register all 16 bits of it, memory the bytes of
the width; a constant holds nothing (R151). -/
def holds (bw : Width) (loc : Loc) (v : Word) (s : State) : Prop :=
  match loc with
  | .reg i => s.reg i = v
  | .mem a =>
    s.mem.read a.toNat = v.extractLsb' 0 8 ∧
    (bw = .word → s.mem.read (a + 1#16).toNat = v.extractLsb' 8 8)
  | .const _ => True

/-- The four flags have these values. -/
def flagsAre (c z n v : Bool) (s : State) : Prop :=
  s.flag .C = c ∧ s.flag .Z = z ∧ s.flag .N = n ∧ s.flag .V = v

/-- SR's bits other than the four flags (R27, R31). -/
def otherBits (sr : Word) : Word :=
  sr &&& 0xFEF8#16

/-- A value of a width read as two's complement (R7, R215): W bits, the top one the sign. -/
def signed (bw : Width) (v : Word) : Int :=
  if v.toNat < 2 ^ (widthBits bw - 1) then v.toNat else v.toNat - 2 ^ widthBits bw

/-- A number that no W-bit two's complement value is. -/
def outOfRange (bw : Width) (z : Int) : Bool :=
  decide (z < -2 ^ (widthBits bw - 1)) || decide (2 ^ (widthBits bw - 1) ≤ z)

/-- The `n` bytes of memory from an address on, wrapping at the top (R63, R66). -/
def bytesAt (m : Memory) (a : Word) : Nat → List Byte
  | 0 => []
  | n + 1 => m.readByte a :: bytesAt m (a + 1#16) n

/-- Whether an instruction names SR as a register: as a mode-0 operand or a register-mode destination
(R30, last paragraph). -/
def namesSr : Instr → Bool
  | .rrc _ op | .swpb _ op | .rra _ op | .sxt _ op | .push _ op | .call _ op =>
    op.reg == Reg.sr && op.mode == .register
  | .mov _ s d | .add _ s d | .sub _ s d | .cmp _ s d | .bic _ s d | .bis _ s d | .xor _ s d | .and _ s d =>
    (s.reg == Reg.sr && s.mode == .register) || (d.reg == Reg.sr && d.mode == .register)
  | .jne _ | .jeq _ | .jnc _ | .jc _ | .jn _ | .jge _ | .jl _ | .jmp _ => false
  | .reti _ | .addc _ | .subc _ | .dadd _ | .bit _ => false
  | .unknownSingle7 _ | .unknownTwo0 _ | .unknownTwo1Low _ | .unknownTwo1High _ => false

/-- `s` with SR's twelve bits that are not flags taken from `x` (R31). -/
def withOtherBits (x : Word) (s : State) : State :=
  s.setSr ((s.sr &&& 0x0107#16) ||| otherBits x)

end Sys2Proof.Safety
end

