-- ==== Sys2Proof/Certificates/Slice0/Obligations.lean ====
section
/-! DEFINITION. What is claimed of the machine. Statements about an operand instruction are about every
operand form: `resolveSrc`, `resolveDst` and `resolveTwo` are the resolvers the meanings use
(spec/40_operand_resolution.md; what they give is stated below), applied to the state whose PC has passed the
instruction word, and for PUSH and CALL to the state whose SP has moved down too. Where a clause rests on a decision of the spec, its entry D<n> of spec/92_eei_decisions.md is named. -/

open Sys2Proof Sys2Proof.Machine Sys2Proof.Safety

/-! ## Memory -/

/-- R63: a byte read is the byte, zero-extended; a word read is `byte[a] + 256 * byte[(a+1) mod 65536]`. -/
def Obligations.WordReadIsLittleEndian : Prop :=
  ∀ (m : Memory) (a : Word),
    (m.load .byte a).toNat = (m.read a.toNat).toNat ∧
    (m.load .word a).toNat = (m.read a.toNat).toNat + 256 * (m.read ((a.toNat + 1) % 65536)).toNat

/-- A byte write stores `v[7:0]` at `a` and touches no other byte; a word write stores `v[7:0]` at `a` and
`v[15:8]` at the next address (section 2 of the memory file). Both keep the canonical form of memory, which is
the model's choice (log entry 4). -/
def Obligations.WriteStoresItsBytesOnly : Prop :=
  ∀ (m : Memory) (a v : Word), m.wf = true →
    (m.store .byte a v).wf = true ∧ (m.store .word a v).wf = true ∧
    (∀ x, (m.store .byte a v).read x = if x = a.toNat then v.extractLsb' 0 8 else m.read x) ∧
    (∀ x, (m.store .word a v).read x =
      if x = a.toNat then v.extractLsb' 0 8
      else if x = (a.toNat + 1) % 65536 then v.extractLsb' 8 8
      else m.read x)

/-- Mixed widths see the bytes (section 2 of the memory file): a word is read back by bytes, two bytes by a
word, and a byte write at `a + 1` changes only the high byte of the word at `a`. -/
def Obligations.MixedWidthsSeeTheBytes : Prop :=
  ∀ (m : Memory) (a v w : Word), m.wf = true →
    ((m.store .word a v).load .word a = v ∧
     (m.store .word a v).load .byte a = v &&& 0x00FF#16 ∧
     (m.store .word a v).load .byte (a + 1#16) = v >>> 8) ∧
    ((m.store .byte a v).store .byte (a + 1#16) w).load .word a = (w <<< 8) ||| (v &&& 0x00FF#16) ∧
    (m.store .byte (a + 1#16) w).load .word a = (w <<< 8) ||| (m.load .word a &&& 0x00FF#16)

/-- A word access at 0xFFFF wraps to 0x0000, for reads and writes (decision D17). -/
def Obligations.WordAccessAtTopWraps : Prop :=
  ∀ (m : Memory) (v : Word), m.wf = true →
    (m.readWord 0xFFFF#16).toNat = (m.read 65535).toNat + 256 * (m.read 0).toNat ∧
    (m.store .word 0xFFFF#16 v).read 65535 = v.extractLsb' 0 8 ∧
    (m.store .word 0xFFFF#16 v).read 0 = v.extractLsb' 8 8

/-! ## Registers and flags -/

/-- R28: the four flags are bits 0, 1, 2 and 8 of register 2. -/
def Obligations.FlagsSitAtTheirBits : Prop :=
  ∀ s : State, s.flag .C = (s.reg 2).getLsbD 0 ∧ s.flag .Z = (s.reg 2).getLsbD 1 ∧
    s.flag .N = (s.reg 2).getLsbD 2 ∧ s.flag .V = (s.reg 2).getLsbD 8

/-- R29: setting a flag is `sr <- (sr & ~(1 << pos)) | (b << pos)`; the flag then reads `b`, no other bit of
SR changes, and nothing but SR changes. -/
def Obligations.SetFlagChangesOneBit : Prop :=
  ∀ (s : State) (f : Flag) (b : Bool),
    (s.setFlag f b).sr = (s.sr &&& ~~~(1#16 <<< f.pos)) ||| ((if b then 1#16 else 0#16) <<< f.pos) ∧
    (s.setFlag f b).flag f = b ∧
    (∀ g, g ≠ f → (s.setFlag f b).flag g = s.flag g) ∧
    (∀ i, i ≠ f.pos → (s.setFlag f b).sr.getLsbD i = s.sr.getLsbD i) ∧
    (∀ r, r ≠ Reg.sr → (s.setFlag f b).reg r = s.reg r) ∧
    (s.setFlag f b).mem = s.mem ∧ (s.setFlag f b).run = s.run

/-- `updateZN`: Z when the result is zero, N from bit 15 or bit 7; V, C and SR's other bits stay. -/
def Obligations.UpdateZNTouchesZAndNOnly : Prop :=
  ∀ (bw : Width) (v : Word) (s : State),
    flagsAre (s.flag .C) (decide (v = 0#16)) (v.getLsbD (widthBits bw - 1)) (s.flag .V) (updateZN bw v s) ∧
    otherBits (updateZN bw v s).sr = otherBits s.sr ∧
    (∀ r, r ≠ Reg.sr → (updateZN bw v s).reg r = s.reg r) ∧
    (updateZN bw v s).mem = s.mem ∧ (updateZN bw v s).run = s.run

/-! ## The operand resolver -/

/-- The constant generator: which register and mode select a constant, the table's cells (placed by decision
D4), and byte mode reading the low byte of a constant (decision D9). -/
def Obligations.ConstantGeneratorTable : Prop :=
  (∀ op : Operand, (constOf op).isSome = true ↔ (op.reg = 2 ∧ op.mode ≠ .register) ∨ op.reg = 3) ∧
  constOf ⟨2, .indexed⟩ = some 0x0000#16 ∧ constOf ⟨2, .indirect⟩ = some 0x0004#16 ∧
  constOf ⟨2, .autoinc⟩ = some 0x0008#16 ∧
  constOf ⟨3, .register⟩ = some 0x0000#16 ∧ constOf ⟨3, .indexed⟩ = some 0x0001#16 ∧
  constOf ⟨3, .indirect⟩ = some 0x0002#16 ∧ constOf ⟨3, .autoinc⟩ = some 0xFFFF#16 ∧
  (∀ s : State, readLoc .byte (.const 0xFFFF#16) s = 0x00FF#16 ∧ readLoc .word (.const 0xFFFF#16) s = 0xFFFF#16)

/-- Where a source operand is and what resolving it moves, mode by mode. The index base is read after PC
has passed the offset word (decision D8); only PC steps by 2 in byte mode (decision D30). -/
def Obligations.SourceResolution : Prop :=
  ∀ (bw : Width) (reg : Reg) (s : State),
    (∀ mode v, constOf ⟨reg, mode⟩ = some v → resolveSrc bw ⟨reg, mode⟩ s = ⟨.const v, s⟩) ∧
    (reg ≠ 3 → resolveSrc bw ⟨reg, .register⟩ s = ⟨.reg reg, s⟩) ∧
    (reg ≠ 2 → reg ≠ 3 →
      resolveSrc bw ⟨reg, .indexed⟩ s =
        ⟨.mem (s.mem.readWord s.pc + if reg = 0 then s.pc + 2#16 else s.reg reg), s.setPc (s.pc + 2#16)⟩ ∧
      resolveSrc bw ⟨reg, .indirect⟩ s = ⟨.mem (s.reg reg), s⟩ ∧
      resolveSrc bw ⟨reg, .autoinc⟩ s =
        ⟨.mem (s.reg reg), s.setReg reg (s.reg reg + if reg = 0 ∨ bw = .word then 2#16 else 1#16)⟩)

/-- The destination's modes: a memory-mode destination on register 2 is the offset word alone; on any
other register, R3's stored value included, the sum; PC advances by 2 either way. A register-mode destination
is the register. With two operands the source is resolved and its value read first, and the destination is
resolved, and read, in the state the source leaves. (Sections 1, 3 and 5 of the operand file; decisions D6, D8,
D15, D16.) -/
def Obligations.DestinationResolution : Prop :=
  ∀ (reg : Reg) (s : State),
    resolveDst ⟨reg, .register⟩ s = ⟨.reg reg, s⟩ ∧
    resolveDst ⟨2, .memory⟩ s = ⟨.mem (s.mem.readWord s.pc), s.setPc (s.pc + 2#16)⟩ ∧
    (reg ≠ 2 → resolveDst ⟨reg, .memory⟩ s =
      ⟨.mem (s.mem.readWord s.pc + if reg = 0 then s.pc + 2#16 else s.reg reg), s.setPc (s.pc + 2#16)⟩) ∧
    ∀ (bw : Width) (src : Operand) (dst : Dest),
      let rs := resolveSrc bw src s
      let rd := resolveDst dst rs.st
      let o := resolveTwo bw src dst s
      o.src = readLoc bw rs.loc rs.st ∧ o.loc = rd.loc ∧ o.st = rd.st ∧ o.dst bw = readLoc bw rd.loc rd.st

/-- An immediate is the extension word, its low byte in byte mode, and PC passes it by 2 in both widths. -/
def Obligations.ImmediateIsTheExtensionWord : Prop :=
  ∀ (bw : Width) (s : State),
    let r := resolveSrc bw ⟨Reg.pc, .autoinc⟩ s
    readLoc bw r.loc r.st = s.mem.readWord s.pc &&& mask bw ∧ r.st.pc = s.pc + 2#16

/-- `ReadLoc`: a register, any of the sixteen, gives its stored value and a constant its own, each reduced to W
bits (decision D9); memory gives the word, or the byte zero-extended. So an operand value has W bits, whatever
its location. -/
def Obligations.OperandValueFitsItsWidth : Prop :=
  ∀ (bw : Width) (s : State),
    (∀ i : Reg, (readLoc bw (.reg i) s).toNat = (s.reg i).toNat % 2 ^ widthBits bw) ∧
    (∀ a : Word, readLoc bw (.mem a) s = s.mem.load bw a) ∧
    (∀ v : Word, (readLoc bw (.const v) s).toNat = v.toNat % 2 ^ widthBits bw) ∧
    (∀ i, readLoc .word (.reg i) s = s.reg i) ∧
    ∀ loc, (readLoc bw loc s).toNat < 2 ^ widthBits bw

/-- `WriteLoc`: what a write-back leaves where it goes, and that it goes nowhere else. In byte mode a register
ends as the zero-extended byte (decision D9); a write to a constant is dropped (decision D7). That memory keeps
its canonical form is about the model's own choice of form (log entry 4). -/
def Obligations.WriteBackGoesToItsLocation : Prop :=
  ∀ (bw : Width) (loc : Loc) (v : Word) (s : State), s.mem.wf = true →
    holds bw loc (v &&& mask bw) (writeLoc bw loc v s) ∧
    (∀ r, loc ≠ .reg r → (writeLoc bw loc v s).reg r = s.reg r) ∧
    (∀ x, x ∉ storedBytes bw loc → (writeLoc bw loc v s).mem.read x = s.mem.read x) ∧
    (∀ c, loc = .const c → writeLoc bw loc v s = s) ∧
    (writeLoc bw loc v s).run = s.run ∧ (writeLoc bw loc v s).mem.wf = true

/-- R3 stores what is written to it and no source yields it; register 2 is SR as a mode-0 source and 0, 4 or 8
otherwise; a register-mode destination is read raw (decision D6). -/
def Obligations.ConstantRegistersAsOperands : Prop :=
  ∀ (bw : Width) (mode : SrcMode) (s : State) (x : Word),
    let value := fun (op : Operand) (u : State) => readLoc bw (resolveSrc bw op u).loc (resolveSrc bw op u).st
    (s.setReg 3 x).reg 3 = x ∧
    value ⟨3, mode⟩ (s.setReg 3 x) = value ⟨3, mode⟩ s ∧
    value ⟨2, .register⟩ s = s.sr &&& mask bw ∧
    (mode ≠ .register → value ⟨2, mode⟩ (s.setReg 2 x) = value ⟨2, mode⟩ s) ∧
    readLoc bw (resolveDst ⟨3, .register⟩ (s.setReg 3 x)).loc (resolveDst ⟨3, .register⟩ (s.setReg 3 x)).st = x &&& mask bw

/-! ## Single-operand instructions: results -/

/-- RRC: the prior carry enters at the sign position, the vacated low bit is the new carry, V is cleared; Z and
N follow the result (decision D10), N being the old carry. An operand that is SR or PC
ends as the result (PC: log entry 23). -/
def Obligations.RrcRotatesThroughCarry : Prop :=
  ∀ (bw : Width) (op : Operand) (s : State), s.mem.wf = true →
    let r := resolveSrc bw op s
    let v := readLoc bw r.loc r.st
    let res := BitVec.ofNat 16 (v.toNat / 2 + if s.flag .C then 2 ^ (widthBits bw - 1) else 0)
    encodeWord (.rrc bw op) &&& 0xFF80#16 = 0x1000#16 ∧
    ∃ t, exec (.rrc bw op) s = .next t ∧ holds bw r.loc res t ∧
      (r.loc ≠ .reg Reg.sr → flagsAre (v.getLsbD 0) (decide (res = 0#16)) (s.flag .C) false t)

/-- SWPB: the two bytes change places and no flag changes (decision D12); in byte mode the byte written is 0
(decision D13). A mode-0 operand PC takes it (log entry 23). -/
def Obligations.SwpbExchangesBytes : Prop :=
  ∀ (bw : Width) (op : Operand) (s : State), s.mem.wf = true →
    let r := resolveSrc bw op s
    let v := readLoc bw r.loc r.st
    let res := if bw = .word then BitVec.ofNat 16 (v.toNat % 256 * 256 + v.toNat / 256) else 0#16
    encodeWord (.swpb bw op) &&& 0xFF80#16 = 0x1080#16 ∧
    ∃ t, exec (.swpb bw op) s = .next t ∧ holds bw r.loc res t ∧ (r.loc ≠ .reg Reg.sr → t.sr = s.sr)

/-- RRA: the value halved as a signed number, rounding down; V is cleared; Z and N follow the result (decision
D10). C from bit 0 is the spec's decision D11, on the family's behaviour. A mode-0 operand PC takes the result
(log entry 23). -/
def Obligations.RraHalvesSigned : Prop :=
  ∀ (bw : Width) (op : Operand) (s : State), s.mem.wf = true →
    let r := resolveSrc bw op s
    let v := readLoc bw r.loc r.st
    encodeWord (.rra bw op) &&& 0xFF80#16 = 0x1100#16 ∧
    ∃ t res, exec (.rra bw op) s = .next t ∧ holds bw r.loc res t ∧
      res.toNat < 2 ^ widthBits bw ∧ signed bw res = signed bw v / 2 ∧
      (r.loc ≠ .reg Reg.sr → flagsAre (v.getLsbD 0) (decide (res = 0#16)) (v.getLsbD (widthBits bw - 1)) false t)

/-- SXT: bit 7 replicated across the high byte, V cleared, C is "result nonzero"; Z and N follow the result
(decision D10). In byte mode the byte stays as it was (decision D13). A mode-0 operand PC takes the
result (log entry 23). -/
def Obligations.SxtExtendsTheSign : Prop :=
  ∀ (bw : Width) (op : Operand) (s : State), s.mem.wf = true →
    let r := resolveSrc bw op s
    let v := readLoc bw r.loc r.st
    let low := v.toNat % 256
    let res := BitVec.ofNat 16 (if bw = .word ∧ 128 ≤ low then low + 0xFF00 else low)
    encodeWord (.sxt bw op) &&& 0xFF80#16 = 0x1180#16 ∧
    ∃ t, exec (.sxt bw op) s = .next t ∧ holds bw r.loc res t ∧
      (r.loc ≠ .reg Reg.sr → flagsAre (decide (low ≠ 0)) (decide (low = 0)) (v.getLsbD 7) false t)

/-- PUSH: SP moves down by 2 before the operand is resolved, in both widths, and the value is written at SP as
it stands at the write (decision D27): two below the old SP, unless the operand is `@SP+`, which steps it back.
No flag changes. -/
def Obligations.PushWritesAtTheNewTop : Prop :=
  ∀ (bw : Width) (op : Operand) (s : State), s.mem.wf = true →
    let r := resolveSrc bw op (s.setSp (s.sp - 2#16))
    let top := if steps op = some Reg.sp then (if bw = .word then s.sp else s.sp - 1#16) else s.sp - 2#16
    encodeWord (.push bw op) &&& 0xFF80#16 = 0x1200#16 ∧
    ∃ t, exec (.push bw op) s = .next t ∧ t.sp = top ∧ t.sr = s.sr ∧
      holds bw (.mem top) (readLoc bw r.loc r.st) t

/-- CALL: the return address, the address of the word after the whole instruction, is written as a word at SP,
which has moved, before the operand is resolved, as for PUSH; PC takes the operand's value; no flag changes (decisions D13, D27; conflict C2). -/
def Obligations.CallPushesReturnAddress : Prop :=
  ∀ (bw : Width) (op : Operand) (s : State), s.mem.wf = true →
    let r := resolveSrc bw op (s.setSp (s.sp - 2#16))
    let top := if steps op = some Reg.sp then (if bw = .word then s.sp else s.sp - 1#16) else s.sp - 2#16
    encodeWord (.call bw op) &&& 0xFF80#16 = 0x1280#16 ∧
    ∃ t, exec (.call bw op) s = .next t ∧ t.pc = readLoc bw r.loc r.st ∧ t.sp = top ∧ t.sr = s.sr ∧
      holds .word (.mem top) (s.pc + BitVec.ofNat 16 (2 * (Instr.call bw op).extWords)) t

/-! ## Two-operand instructions: results -/

/-- MOV: the destination holds the source's value; no flag changes (the destination is not read, decision
D22). A destination that is SR ends as the value. -/
def Obligations.MovCopies : Prop :=
  ∀ (bw : Width) (src : Operand) (dst : Dest) (s : State), s.mem.wf = true →
    let o := resolveTwo bw src dst s
    encodeWord (.mov bw src dst) &&& 0xF000#16 = 0x4000#16 ∧
    ∃ t, exec (.mov bw src dst) s = .next t ∧ holds bw o.loc o.src t ∧ (o.loc ≠ .reg Reg.sr → t.sr = s.sr)

/-- ADD: the sum modulo 2^W; C when the exact sum exceeds the width; V exactly when the signed sum is out of
range; Z and N follow the result (decision D10). The incoming carry takes no part. -/
def Obligations.AddSumsAndSetsFlags : Prop :=
  ∀ (bw : Width) (src : Operand) (dst : Dest) (s : State), s.mem.wf = true →
    let o := resolveTwo bw src dst s
    let d := o.dst bw
    let res := (o.src.toNat + d.toNat) % 2 ^ widthBits bw
    encodeWord (.add bw src dst) &&& 0xF000#16 = 0x5000#16 ∧
    ∃ t, exec (.add bw src dst) s = .next t ∧ holds bw o.loc (BitVec.ofNat 16 res) t ∧
      (o.loc ≠ .reg Reg.sr →
        flagsAre (decide (2 ^ widthBits bw ≤ o.src.toNat + d.toNat)) (decide (res = 0))
          (decide (2 ^ (widthBits bw - 1) ≤ res)) (outOfRange bw (signed bw o.src + signed bw d)) t)

/-- SUB: destination minus source modulo 2^W; C exactly when no borrow occurs; V exactly when the signed
difference is out of range (decision D14); Z and N follow the result (decision D10). -/
def Obligations.SubSubtractsAndSetsFlags : Prop :=
  ∀ (bw : Width) (src : Operand) (dst : Dest) (s : State), s.mem.wf = true →
    let o := resolveTwo bw src dst s
    let d := o.dst bw
    let res := (d.toNat + 2 ^ widthBits bw - o.src.toNat) % 2 ^ widthBits bw
    encodeWord (.sub bw src dst) &&& 0xF000#16 = 0x8000#16 ∧
    ∃ t, exec (.sub bw src dst) s = .next t ∧ holds bw o.loc (BitVec.ofNat 16 res) t ∧
      (o.loc ≠ .reg Reg.sr →
        flagsAre (decide (o.src.toNat ≤ d.toNat)) (decide (res = 0))
          (decide (2 ^ (widthBits bw - 1) ≤ res)) (outOfRange bw (signed bw d - signed bw o.src)) t)

/-- CMP: Z iff destination = source; C iff destination ≥ source unsigned; N xor V iff destination < source
signed, so that JL is taken exactly then and JGE exactly otherwise, JEQ exactly on equality and JC exactly on
`≥`. The flags stay when the destination is SR. (Decisions D10, D14.) -/
def Obligations.CompareThenJump : Prop :=
  ∀ (bw : Width) (src : Operand) (dst : Dest) (s : State),
    let o := resolveTwo bw src dst s
    let d := o.dst bw
    encodeWord (.cmp bw src dst) &&& 0xF000#16 = 0x9000#16 ∧
    ∃ t, exec (.cmp bw src dst) s = .next t ∧
      t.flag .Z = decide (d = o.src) ∧ t.flag .C = decide (o.src.toNat ≤ d.toNat) ∧
      (t.flag .N ^^ t.flag .V) = decide (signed bw d < signed bw o.src) ∧
      t.flag .V = outOfRange bw (signed bw d - signed bw o.src) ∧
      ∀ off : BitVec 10, let target := BitVec.ofInt 16 (t.pc.toNat + 2 * off.toInt)
        exec (.jl off) t = .next (if signed bw d < signed bw o.src then t.setPc target else t) ∧
        exec (.jge off) t = .next (if signed bw o.src ≤ signed bw d then t.setPc target else t) ∧
        exec (.jeq off) t = .next (if d = o.src then t.setPc target else t) ∧
        exec (.jc off) t = .next (if o.src.toNat ≤ d.toNat then t.setPc target else t)

/-- R209: BIC clears the destination's bits that are set in the source; flags untouched. -/
def Obligations.BicClearsBits : Prop :=
  ∀ (bw : Width) (src : Operand) (dst : Dest) (s : State), s.mem.wf = true →
    let o := resolveTwo bw src dst s
    encodeWord (.bic bw src dst) &&& 0xF000#16 = 0xC000#16 ∧
    ∃ t, exec (.bic bw src dst) s = .next t ∧ holds bw o.loc (o.dst bw &&& ~~~o.src) t ∧
      (o.loc ≠ .reg Reg.sr → t.sr = s.sr) ∧ t.run = s.run

/-- BIS sets the destination's bits that are set in the source; flags untouched. A byte-mode register destination
ends with its high byte cleared (decision D9; log entry 11). -/
def Obligations.BisSetsBits : Prop :=
  ∀ (bw : Width) (src : Operand) (dst : Dest) (s : State), s.mem.wf = true →
    let o := resolveTwo bw src dst s
    encodeWord (.bis bw src dst) &&& 0xF000#16 = 0xD000#16 ∧
    ∃ t, exec (.bis bw src dst) s = .next t ∧ holds bw o.loc (o.dst bw ||| o.src) t ∧
      (o.loc ≠ .reg Reg.sr → t.sr = s.sr) ∧ t.run = s.run

/-- XOR: V when both operands are negative, C when the result is nonzero, each cleared otherwise; Z and N
follow the result (decision D10). -/
def Obligations.XorAndItsFlags : Prop :=
  ∀ (bw : Width) (src : Operand) (dst : Dest) (s : State), s.mem.wf = true →
    let o := resolveTwo bw src dst s
    let d := o.dst bw
    let res := d ^^^ o.src
    encodeWord (.xor bw src dst) &&& 0xF000#16 = 0xE000#16 ∧
    ∃ t, exec (.xor bw src dst) s = .next t ∧ holds bw o.loc res t ∧
      (o.loc ≠ .reg Reg.sr →
        flagsAre (decide (res ≠ 0#16)) (decide (res = 0#16)) (decide (2 ^ (widthBits bw - 1) ≤ res.toNat))
          (decide (signed bw o.src < 0) && decide (signed bw d < 0)) t)

/-- AND: C when the result is nonzero, V cleared; Z and N follow the result (decision D10). -/
def Obligations.AndAndItsFlags : Prop :=
  ∀ (bw : Width) (src : Operand) (dst : Dest) (s : State), s.mem.wf = true →
    let o := resolveTwo bw src dst s
    let d := o.dst bw
    let res := d &&& o.src
    encodeWord (.and bw src dst) &&& 0xF000#16 = 0xF000#16 ∧
    ∃ t, exec (.and bw src dst) s = .next t ∧ holds bw o.loc res t ∧
      (o.loc ≠ .reg Reg.sr →
        flagsAre (decide (res ≠ 0#16)) (decide (res = 0#16)) (decide (2 ^ (widthBits bw - 1) ≤ res.toNat)) false t)

/-! ## Frames

A frame also says what the one register an `@Rn+` operand steps holds: 2 more, 1 more in byte mode (decision
D30 for SP), unless the instruction writes it besides. -/

/-- What RRC, RRA and SXT leave unchanged: every register but PC, the one the operand steps, the one written
back to, and SR; of SR the twelve bits that are not flags (all of it may change where SR is written back to);
every byte of memory outside the operand's own bytes; the run state. -/
def Obligations.RotateAndExtendFrame : Prop :=
  ∀ (bw : Width) (op : Operand) (s t : State),
    let loc := (resolveSrc bw op s).loc
    (exec (.rrc bw op) s = .next t ∨ exec (.rra bw op) s = .next t ∨ exec (.sxt bw op) s = .next t) →
      (∀ r, r ≠ Reg.pc → r ≠ Reg.sr → steps op ≠ some r → loc ≠ .reg r → t.reg r = s.reg r) ∧
      (∀ r, steps op = some r → t.reg r = s.reg r + if bw = .word then 2#16 else 1#16) ∧
      (loc ≠ .reg Reg.sr → otherBits t.sr = otherBits s.sr) ∧
      (∀ x, x ∉ storedBytes bw loc → t.mem.read x = s.mem.read x) ∧ t.run = s.run

/-- What SWPB leaves unchanged: every register, SR among them, but PC, the one the operand steps and the one
written back to; every byte of memory outside the operand's own bytes; the run state. -/
def Obligations.SwpbFrame : Prop :=
  ∀ (bw : Width) (op : Operand) (s t : State),
    let loc := (resolveSrc bw op s).loc
    exec (.swpb bw op) s = .next t →
      (∀ r, r ≠ Reg.pc → steps op ≠ some r → loc ≠ .reg r → t.reg r = s.reg r) ∧
      (∀ r, steps op = some r → t.reg r = s.reg r + if bw = .word then 2#16 else 1#16) ∧
      (∀ x, x ∉ storedBytes bw loc → t.mem.read x = s.mem.read x) ∧ t.run = s.run

/-- What PUSH and CALL leave unchanged: every register but PC, SP and the one the operand steps; every byte of
memory outside the stack slot written at SP as it stands after the operand's resolution; the run state. -/
def Obligations.StackFrame : Prop :=
  ∀ (bw : Width) (op : Operand) (s t : State),
    let slot := Loc.mem (resolveSrc bw op (s.setSp (s.sp - 2#16))).st.sp
    (exec (.push bw op) s = .next t →
      (∀ r, r ≠ Reg.pc → r ≠ Reg.sp → steps op ≠ some r → t.reg r = s.reg r) ∧
      (∀ r, steps op = some r → r ≠ Reg.sp → t.reg r = s.reg r + if bw = .word then 2#16 else 1#16) ∧
      (∀ x, x ∉ storedBytes bw slot → t.mem.read x = s.mem.read x) ∧ t.run = s.run) ∧
    (exec (.call bw op) s = .next t →
      (∀ r, r ≠ Reg.pc → r ≠ Reg.sp → steps op ≠ some r → t.reg r = s.reg r) ∧
      (∀ r, steps op = some r → r ≠ Reg.sp → t.reg r = s.reg r + if bw = .word then 2#16 else 1#16) ∧
      (∀ x, x ∉ storedBytes .word slot → t.mem.read x = s.mem.read x) ∧ t.run = s.run)

/-- What ADD, SUB, XOR and AND leave unchanged: every register but PC, the one the source steps, the destination
and SR; of SR the twelve bits that are not flags (all may change where SR is the destination); every byte of
memory outside the destination's own; the run state. -/
def Obligations.ArithmeticFrame : Prop :=
  ∀ (bw : Width) (src : Operand) (dst : Dest) (s t : State),
    let loc := (resolveTwo bw src dst s).loc
    (exec (.add bw src dst) s = .next t ∨ exec (.sub bw src dst) s = .next t ∨
     exec (.xor bw src dst) s = .next t ∨ exec (.and bw src dst) s = .next t) →
      (∀ r, r ≠ Reg.pc → r ≠ Reg.sr → steps src ≠ some r → loc ≠ .reg r → t.reg r = s.reg r) ∧
      (∀ r, steps src = some r → loc ≠ .reg r → t.reg r = s.reg r + if bw = .word then 2#16 else 1#16) ∧
      (loc ≠ .reg Reg.sr → otherBits t.sr = otherBits s.sr) ∧
      (∀ x, x ∉ storedBytes bw loc → t.mem.read x = s.mem.read x) ∧ t.run = s.run

/-- What MOV, BIC and BIS leave unchanged: every register, SR among them, but PC, the one the source steps and
the destination; every byte of memory outside the destination's own; the run state. -/
def Obligations.MoveFrame : Prop :=
  ∀ (bw : Width) (src : Operand) (dst : Dest) (s t : State),
    let loc := (resolveTwo bw src dst s).loc
    (exec (.mov bw src dst) s = .next t ∨ exec (.bic bw src dst) s = .next t ∨ exec (.bis bw src dst) s = .next t) →
      (∀ r, r ≠ Reg.pc → steps src ≠ some r → loc ≠ .reg r → t.reg r = s.reg r) ∧
      (∀ r, steps src = some r → loc ≠ .reg r → t.reg r = s.reg r + if bw = .word then 2#16 else 1#16) ∧
      (∀ x, x ∉ storedBytes bw loc → t.mem.read x = s.mem.read x) ∧ t.run = s.run

/-- CMP writes nothing but the four flags of SR: every register but PC, the one the source steps and SR, SR's
other bits, all of memory and the run state stay. -/
def Obligations.CompareFrame : Prop :=
  ∀ (bw : Width) (src : Operand) (dst : Dest) (s t : State), exec (.cmp bw src dst) s = .next t →
    (∀ r, r ≠ Reg.pc → r ≠ Reg.sr → steps src ≠ some r → t.reg r = s.reg r) ∧
    (∀ r, steps src = some r → t.reg r = s.reg r + if bw = .word then 2#16 else 1#16) ∧
    otherBits t.sr = otherBits s.sr ∧ t.mem = s.mem ∧ t.run = s.run

/-- An operand instruction that does not write PC leaves it after its last word: advanced by 2 for each
extension word it takes (R101), whatever the words hold. -/
def Obligations.PcEndsAfterTheLastWord : Prop :=
  (∀ (bw : Width) (op : Operand) (s t : State), (resolveSrc bw op s).loc ≠ .reg Reg.pc →
    (exec (.rrc bw op) s = .next t ∨ exec (.swpb bw op) s = .next t ∨
     exec (.rra bw op) s = .next t ∨ exec (.sxt bw op) s = .next t) →
    t.pc = s.pc + BitVec.ofNat 16 (2 * op.takesWord.toNat)) ∧
  (∀ (bw : Width) (op : Operand) (s t : State), exec (.push bw op) s = .next t →
    t.pc = s.pc + BitVec.ofNat 16 (2 * op.takesWord.toNat)) ∧
  (∀ (bw : Width) (src : Operand) (dst : Dest) (s t : State),
    (exec (.cmp bw src dst) s = .next t ∨
     (dst ≠ ⟨Reg.pc, .register⟩ ∧
      (exec (.mov bw src dst) s = .next t ∨ exec (.add bw src dst) s = .next t ∨
       exec (.sub bw src dst) s = .next t ∨ exec (.bic bw src dst) s = .next t ∨
       exec (.bis bw src dst) s = .next t ∨ exec (.xor bw src dst) s = .next t ∨
       exec (.and bw src dst) s = .next t))) →
    t.pc = s.pc + BitVec.ofNat 16 (2 * (src.takesWord.toNat + dst.takesWord.toNat)))

/-! ## Jumps -/

/-- R241, R242, R244 to R248, and the condition of JNC: each jump's encoding and condition. Taken, PC moves by twice the signed displacement from the
address after the jump; not taken, nothing changes; a jump changes nothing but PC. -/
def Obligations.JumpsTestTheirCondition : Prop :=
  ∀ (off : BitVec 10) (s : State),
    let target := BitVec.ofInt 16 (s.pc.toNat + 2 * off.toInt)
    let word := fun (cond : Nat) => BitVec.ofNat 16 (0x2000 + 0x400 * cond + off.toNat)
    (decodeWord (word 0) = .jne off ∧ exec (.jne off) s = .next (if s.sr.getLsbD 1 = false then s.setPc target else s)) ∧
    (decodeWord (word 1) = .jeq off ∧ exec (.jeq off) s = .next (if s.sr.getLsbD 1 = true then s.setPc target else s)) ∧
    (decodeWord (word 2) = .jnc off ∧ exec (.jnc off) s = .next (if s.sr.getLsbD 0 = false then s.setPc target else s)) ∧
    (decodeWord (word 3) = .jc off ∧ exec (.jc off) s = .next (if s.sr.getLsbD 0 = true then s.setPc target else s)) ∧
    (decodeWord (word 4) = .jn off ∧ exec (.jn off) s = .next (if s.sr.getLsbD 2 = true then s.setPc target else s)) ∧
    (decodeWord (word 5) = .jge off ∧
      exec (.jge off) s = .next (if s.sr.getLsbD 2 = s.sr.getLsbD 8 then s.setPc target else s)) ∧
    (decodeWord (word 6) = .jl off ∧
      exec (.jl off) s = .next (if s.sr.getLsbD 2 ≠ s.sr.getLsbD 8 then s.setPc target else s)) ∧
    (decodeWord (word 7) = .jmp off ∧ exec (.jmp off) s = .next (s.setPc target))

/-- The reach of a jump and PC's parity (sections 1 and 3 of the jump file): any of the eight, fetched at A, leaves
PC between A − 1022 and A + 1024 modulo 2^16, taken or not, and even exactly when it was. -/
def Obligations.JumpReachAndParity : Prop :=
  ∀ (off : BitVec 10) (i : Instr) (s t : State),
    i ∈ [.jne off, .jeq off, .jnc off, .jc off, .jn off, .jge off, .jl off, .jmp off] → exec i s = .next t →
      (∃ k : Int, -1022 ≤ k ∧ k ≤ 1024 ∧ k % 2 = 0 ∧ t.pc = BitVec.ofInt 16 ((s.pc - 2#16).toNat + k)) ∧
      t.pc.getLsbD 0 = s.pc.getLsbD 0

/-- A jump assembled for a target, by the assembler's formula, goes there: for every even distance from the
address after the jump that the ten bits hold. -/
def Obligations.AssembledJumpGoesToItsTarget : Prop :=
  ∀ (at_ target : Word) (s : State), s.pc = at_ + 2#16 → (target - s.pc).getLsbD 0 = false →
    -1024 ≤ (target - s.pc).toInt → (target - s.pc).toInt ≤ 1022 →
      exec (.jmp (Assembler.jumpTo at_ target)) s = .next (s.setPc target)

/-! ## Fatal words -/

/-- R177, R178, R213, R214: RETI and the unknown words raise their condition, whatever their low bits hold: the
run state becomes `Halted` with the address the word was fetched from and the word, and no register and no byte
of memory changes. -/
def Obligations.RetiAndUnknownWordsHalt : Prop :=
  ∀ (s : State) (b7 : BitVec 7) (b10 : BitVec 10) (b11 : BitVec 11) (b12 : BitVec 12),
    let halts := fun (i : Instr) (kind : FatalKind) (word : Nat) =>
      decodeWord (BitVec.ofNat 16 word) = i ∧
      ∃ t, exec i s = .next t ∧ t.run = .halted ⟨kind, s.pc - 2#16, BitVec.ofNat 16 word⟩ ∧
        (∀ r, t.reg r = s.reg r) ∧ t.mem = s.mem
    halts (.reti b7) .notImplemented (0x1300 + b7.toNat) ∧
    halts (.unknownSingle7 b7) .unknownOpcode (0x1380 + b7.toNat) ∧
    halts (.unknownTwo0 b12) .unknownOpcode b12.toNat ∧
    halts (.unknownTwo1Low b10) .unknownOpcode (0x1400 + b10.toNat) ∧
    halts (.unknownTwo1High b11) .unknownOpcode (0x1800 + b11.toNat)

/-- ADDC, SUBC, DADD and BIT raise NotImplemented, whatever their low bits hold, and change nothing but the run
state: the spec preserves the halt and does not complete the opcodes (decision D3). -/
def Obligations.UnimplementedArithmeticHalts : Prop :=
  ∀ (s : State) (b12 : BitVec 12),
    let halts := fun (i : Instr) (word : Nat) =>
      decodeWord (BitVec.ofNat 16 word) = i ∧
      ∃ t, exec i s = .next t ∧ t.run = .halted ⟨.notImplemented, s.pc - 2#16, BitVec.ofNat 16 word⟩ ∧
        (∀ r, t.reg r = s.reg r) ∧ t.mem = s.mem
    halts (.addc b12) (0x6000 + b12.toNat) ∧ halts (.subc b12) (0x7000 + b12.toNat) ∧
    halts (.dadd b12) (0xA000 + b12.toNat) ∧ halts (.bit b12) (0xB000 + b12.toNat)

/-- R261, R263: a running core's step halts it exactly when the word at PC is one of the listed words, and the
kind depends on that word alone. -/
def Obligations.ExactlyTheListedWordsHalt : Prop :=
  ∀ (s t : State), s.run = .running → step s = .next t →
    let w := (s.mem.readWord s.pc).toNat
    ((∃ a x, t.run = .halted ⟨.unknownOpcode, a, x⟩) ↔ w ≤ 0x0FFF ∨ (0x1380 ≤ w ∧ w ≤ 0x13FF) ∨ (0x1400 ≤ w ∧ w ≤ 0x1FFF)) ∧
    ((∃ a x, t.run = .halted ⟨.notImplemented, a, x⟩) ↔
      (0x1300 ≤ w ∧ w ≤ 0x137F) ∨ (0x6000 ≤ w ∧ w ≤ 0x7FFF) ∨ (0xA000 ≤ w ∧ w ≤ 0xBFFF))

/-- The state at the halt (decision D15): of a step that raises, PC is the instruction's start plus 2, the fault
record names the start and the fetched word, and nothing else has changed. -/
def Obligations.HaltingStepChangesOnlyPc : Prop :=
  ∀ (s : State) (k : FatalKind), s.run = .running → fatalKind (decodeWord (s.mem.readWord s.pc)) = some k →
    ∃ t, step s = .next t ∧ t.run = .halted ⟨k, s.pc, s.mem.readWord s.pc⟩ ∧ t.pc = s.pc + 2#16 ∧
      (∀ r, r ≠ Reg.pc → t.reg r = s.reg r) ∧ t.mem = s.mem

/-- A halted core stays as it is, however often it is stepped (decision D21); `init` is what starts it again. -/
def Obligations.HaltIsLatched : Prop :=
  ∀ (s : State) (record : FaultRecord) (n : Nat), s.run = .halted record →
    Sys2Proof.core.run n s = .next s ∧ ∀ sp : Word, (s.init sp).run = .running

/-! ## The step -/

/-- Where the bytes at PC decode to an instruction with its extension words, a running core's step is that
instruction's execution in the state whose PC has passed the instruction word, and the instruction is
well-formed; in particular wherever an instruction's word stands at PC. -/
def Obligations.StepRunsTheDecodedInstruction : Prop :=
  ∀ s : State, s.run = .running →
    (∀ a rest, decode (bytesAt s.mem s.pc 6) = .ok (a, rest) →
      a.wellFormed = true ∧ step s = exec a.instr (s.setPc (s.pc + 2#16))) ∧
    (∀ i : Instr, s.mem.readWord s.pc = encodeWord i → step s = exec i (s.setPc (s.pc + 2#16)))

/-- The step is total: it answers a next state in every state, never a fault and never a refusal ("There is no
third outcome in the hardware"), and the next state is running or halted by the word at PC alone. -/
def Obligations.StepAlwaysAnswersANextState : Prop :=
  ∀ s : State, ∃ t, step s = .next t ∧
    (s.run = .running → (t.run = .running ↔ fatalKind (decodeWord (s.mem.readWord s.pc)) = none))

/-- Every step keeps the canonical form of memory and a consistent halt: PC two past the failing word, the
record's kind the one its word raises. The form is the model's own (log entry 4). -/
def Obligations.StepKeepsInvariant : Prop :=
  ∀ s t : State, inv s = true → step s = .next t → inv t = true

/-- At reset the core runs and the invariant holds; the canonical form of memory in it is the model's own (log
entry 4). -/
def Obligations.ResetMeetsInvariant : Prop :=
  State.reset.run = .running ∧ inv State.reset = true

/-- SR's twelve bits that are not flags have no effect: an instruction that does not name SR as a register does
the same whatever they hold, and hands them on unchanged (decision D23). -/
def Obligations.OtherStatusBitsAreInert : Prop :=
  ∀ (i : Instr) (s t : State) (x : Word), namesSr i = false → exec i s = .next t →
    exec i (withOtherBits x s) = .next (withOtherBits x t)

/-! ## Encoding -/

/-- Decoding an instruction's word gives the instruction back, every field at every value (R112: no field value
is reserved). -/
def Obligations.DecodeOfEncodeIsTheInstruction : Prop :=
  ∀ i : Instr, decodeWord (encodeWord i) = i

/-- Encoding what a word decodes to gives the word back: no two words are one instruction, and the fault record
of a fatal word is the word that was fetched. -/
def Obligations.EncodeOfDecodeIsTheWord : Prop :=
  ∀ w : Word, encodeWord (decodeWord w) = w

/-- A well-formed instruction laid out in memory, low bytes first, decodes to itself with its extension words,
and what follows it is left over. -/
def Obligations.DecodeOfLaidOutInstruction : Prop :=
  ∀ (a : Assembled) (rest : List Byte), a.wellFormed = true →
    decode (bytesOfWords (encode a) ++ rest) = .ok (a, rest)

/-- The classifier, by its two patterns (decision D2), as ranges of words, and that the decoder gives every word
an instruction of the shape it classifies it as. -/
def Obligations.ClassifierGivesTheShape : Prop :=
  ∀ w : Word,
    (classify w = .singleOperand ↔ 0x1000 ≤ w.toNat ∧ w.toNat ≤ 0x13FF) ∧
    (classify w = .jump ↔ 0x2000 ≤ w.toNat ∧ w.toNat ≤ 0x3FFF) ∧
    (classify w = .twoOperand ↔
      w.toNat ≤ 0x0FFF ∨ (0x1400 ≤ w.toNat ∧ w.toNat ≤ 0x1FFF) ∨ 0x4000 ≤ w.toNat) ∧
    (decodeWord w).shape = classify w

/-- The opcode map is a partition: exactly one of its 31 rows matches a word, and it is the row of the
instruction the decoder reads. -/
def Obligations.OpcodeMapIsAPartition : Prop :=
  ∀ w : Word, (opcodeRows.filter fun r => w &&& r.mask = r.pat).map (·.mnemonic) = [mnemonic (decodeWord w)]

/-- Words written out from the formats decode to the instructions they stand for (the examples of the
instruction rules and of the test vectors). -/
def Obligations.WrittenOutWordsDecode : Prop :=
  decodeWord 0x1005#16 = .rrc .word ⟨5, .register⟩ ∧
  decodeWord 0x12B0#16 = .call .word ⟨0, .autoinc⟩ ∧
  decodeWord 0x5506#16 = .add .word ⟨5, .register⟩ ⟨6, .register⟩ ∧
  decodeWord 0xD0F4#16 = .bis .byte ⟨0, .autoinc⟩ ⟨4, .memory⟩ ∧
  decodeWord 0x23FD#16 = .jne 0x3FD#10 ∧
  decodeWord 0x1300#16 = .reti 0#7 ∧
  decodeWord 0x0000#16 = .unknownTwo0 0#12

/-! ## Initialisation and the host -/

/-- `init`: PC from the little-endian word at 0xFFFE (R300), SP from SP_INIT, `Running`, and nothing else in the
register file or memory (decisions D19, D21). -/
def Obligations.InitLoadsPcAndSp : Prop :=
  ∀ (s : State) (sp : Word),
    (s.init sp).pc.toNat = (s.mem.read 0xFFFE).toNat + 256 * (s.mem.read 0xFFFF).toNat ∧
    (s.init sp).sp = sp ∧ (s.init sp).run = .running ∧ (s.init sp).mem = s.mem ∧
    ∀ r, r ≠ Reg.pc → r ≠ Reg.sp → (s.init sp).reg r = s.reg r

/-- The reset state is power-up (all registers and all memory 0, running; decision D20) followed by `init` with
the value log entry 1 gives the open parameter SP_INIT, on which nothing here rests. -/
def Obligations.ResetIsPowerUpThenInit : Prop :=
  (∀ r, State.powerUp.reg r = 0#16) ∧ (∀ a, State.powerUp.mem.read a = 0#8) ∧ State.powerUp.run = .running ∧
  State.reset = State.powerUp.init Config.spInit

/-- An image of 1 to 65536 bytes lands with its last byte at 0xFFFF, the bytes before it untouched (section 3 of
the memory file); `init` then starts at the image's last two bytes (section 1 of the reset file). That memory
keeps its canonical form is about the model's own choice of form (log entry 4). -/
def Obligations.ImageIsTopAligned : Prop :=
  ∀ (s : State) (image : List Byte), s.mem.wf = true → 1 ≤ image.length → image.length ≤ 65536 →
    ∃ t, s.loadImage image = .next t ∧ t.mem.wf = true ∧
      (∀ i b, image[i]? = some b → t.mem.read (65536 - image.length + i) = b) ∧
      (∀ a, a < 65536 - image.length → t.mem.read a = s.mem.read a) ∧
      (∀ r, t.reg r = s.reg r) ∧ t.run = s.run ∧
      ∀ sp lo hi, image[image.length - 2]? = some lo → image[image.length - 1]? = some hi → 2 ≤ image.length →
        (t.init sp).pc = wordOfBytes lo hi

/-- A CALL and the return idiom `MOV @SP+, PC` undo each other: with memory and SP as CALL left them, the return
goes to the word after the CALL and SP is what it was before, for every operand that is not `@SP+`. -/
def Obligations.CallThenReturn : Prop :=
  ∀ (bw : Width) (op : Operand) (s : State), s.mem.wf = true → steps op ≠ some Reg.sp →
    ∃ t, exec (.call bw op) s = .next t ∧
      ∀ u : State, u.mem = t.mem → u.sp = t.sp →
        ∃ v, exec (.mov .word ⟨Reg.sp, .autoinc⟩ ⟨Reg.pc, .register⟩) u = .next v ∧
          v.pc = s.pc + BitVec.ofNat 16 (2 * op.takesWord.toNat) ∧ v.sp = s.sp ∧ v.mem = t.mem

/-- A PUSH and the pop idiom `MOV @SP+, Rn` undo each other: Rn holds the value pushed, and SP is what it was
before unless it is Rn. -/
def Obligations.PushThenPop : Prop :=
  ∀ (op : Operand) (n : Reg) (s : State), s.mem.wf = true → steps op ≠ some Reg.sp →
    let r := resolveSrc .word op (s.setSp (s.sp - 2#16))
    ∃ t u, exec (.push .word op) s = .next t ∧
      exec (.mov .word ⟨Reg.sp, .autoinc⟩ ⟨n, .register⟩) t = .next u ∧
      u.reg n = readLoc .word r.loc r.st ∧ (n ≠ Reg.sp → u.sp = s.sp) ∧ u.mem = t.mem

/-- The driver's tick (section 5 of the exceptions file): a busy driver drops it; otherwise the core makes
exactly one step, a breakpoint hit switches to verbose mode and stops the timer without skipping the
instruction, and a step that raises stops the timer and reports the fault. -/
def Obligations.TickMakesOneStep : Prop :=
  ∀ d : Driver,
    (d.busy = true → d.tick = (d, [])) ∧
    (d.busy = false → step d.core = .next d.tick.1.core ∧ d.tick.1.busy = false ∧
      (d.core.pc ∈ d.breakpoints → d.tick.1.mode = .verbose ∧ d.tick.1.timerRunning = false) ∧
      (∀ record, d.core.run = .running → d.tick.1.core.run = .halted record →
        d.tick.1.timerRunning = false ∧ DriverEvent.reported record ∈ d.tick.2) ∧
      (d.core.pc ∉ d.breakpoints → d.tick.1.core.run = d.core.run →
        d.tick.1.mode = d.mode ∧ d.tick.1.timerRunning = d.timerRunning))
end

