-- ==== Sys2Proof/Laws/Encoding.lean ====
section
/-! SUPPORT. Bit by bit, what the encoder puts into a word and the decoder's fields take out of one. -/

namespace Sys2Proof

@[simp] theorem getLsbD_put (v : BitVec n) (lo i : Nat) :
    (put v lo).getLsbD i = (decide (i < 16) && (!decide (i < lo) && v.getLsbD (i - lo))) := by
  simp only [put, BitVec.getLsbD_shiftLeft, BitVec.getLsbD_setWidth]
  by_cases h : i < 16
  · simp [h, show i - lo < 16 by omega]
  · simp [h]

@[simp] theorem getLsbD_field (w : Word) (lo len i : Nat) :
    (field w lo len).getLsbD i = (decide (i < len) && w.getLsbD (lo + i)) := by
  simp [field]

/-- A register field holds `r` when its four bits are those of `r`. -/
theorem fieldReg_eq {w : Word} {lo : Nat} {r : Reg} (h : ∀ i, i < 4 → w.getLsbD (lo + i) = (regBits r).getLsbD i) :
    fieldReg w lo = r := by
  have : field w lo 4 = regBits r := by
    apply BitVec.eq_of_getLsbD_eq
    intro i hi
    rw [getLsbD_field, h i hi]
    simp [hi]
  rw [fieldReg, this]
  rfl

/-- A field equals a value when its bits do. -/
theorem field_eq {w : Word} {lo len : Nat} {v : BitVec len} (h : ∀ i, i < len → w.getLsbD (lo + i) = v.getLsbD i) :
    field w lo len = v := by
  apply BitVec.eq_of_getLsbD_eq
  intro i hi
  rw [getLsbD_field, h i hi]
  simp [hi]

/-- Two fields with a bit of the word set differently are different. -/
theorem field_ne {w : Word} {lo len : Nat} {v : BitVec len} (i : Nat) (hi : i < len)
    (h : w.getLsbD (lo + i) ≠ v.getLsbD i) : field w lo len ≠ v := by
  intro e
  apply h
  rw [← e, getLsbD_field]
  simp [hi]

@[simp] theorem srcMode_bits_inj (a b : SrcMode) : a.bits = b.bits ↔ a = b := by
  cases a <;> cases b <;> decide

theorem wordOfBytes_extract (v : Word) : wordOfBytes (v.extractLsb' 0 8) (v.extractLsb' 8 8) = v := by
  apply BitVec.eq_of_getLsbD_eq
  intro i hi
  simp only [wordOfBytes, BitVec.getLsbD_or, BitVec.getLsbD_shiftLeft, BitVec.getLsbD_setWidth, BitVec.getLsbD_extractLsb']
  by_cases h : i < 8
  · simp [hi, h]
  · simp [hi, h, show i - 8 < 8 by omega, show i - 8 < 16 by omega, show 8 + (i - 8) = i by omega]

theorem extract_lo_wordOfBytes (lo hi : Byte) : (wordOfBytes lo hi).extractLsb' 0 8 = lo := by
  apply BitVec.eq_of_getLsbD_eq
  intro i h
  simp only [wordOfBytes, BitVec.getLsbD_extractLsb', BitVec.getLsbD_or, BitVec.getLsbD_shiftLeft, BitVec.getLsbD_setWidth]
  simp [h, show i < 16 by omega]

theorem extract_hi_wordOfBytes (lo hi : Byte) : (wordOfBytes lo hi).extractLsb' 8 8 = hi := by
  apply BitVec.eq_of_getLsbD_eq
  intro i h
  simp only [wordOfBytes, BitVec.getLsbD_extractLsb', BitVec.getLsbD_or, BitVec.getLsbD_shiftLeft, BitVec.getLsbD_setWidth]
  simp [h, show 8 + i < 16 by omega, show i < 16 by omega]

end Sys2Proof
end

