-- ==== Sys2Proof/Laws/State.lean ====
section
/-! SUPPORT. What each field of the state is after each update, so that no proof unfolds a record. -/

namespace Sys2Proof

/-! The four named registers are distinct, so that `simp` decides which one an access names. -/

@[simp] theorem Reg.pc_ne_sp : Reg.pc ≠ Reg.sp := by decide
@[simp] theorem Reg.pc_ne_sr : Reg.pc ≠ Reg.sr := by decide
@[simp] theorem Reg.pc_ne_cg2 : Reg.pc ≠ Reg.cg2 := by decide
@[simp] theorem Reg.sp_ne_pc : Reg.sp ≠ Reg.pc := by decide
@[simp] theorem Reg.sp_ne_sr : Reg.sp ≠ Reg.sr := by decide
@[simp] theorem Reg.sp_ne_cg2 : Reg.sp ≠ Reg.cg2 := by decide
@[simp] theorem Reg.sr_ne_pc : Reg.sr ≠ Reg.pc := by decide
@[simp] theorem Reg.sr_ne_sp : Reg.sr ≠ Reg.sp := by decide
@[simp] theorem Reg.sr_ne_cg2 : Reg.sr ≠ Reg.cg2 := by decide
@[simp] theorem Reg.cg2_ne_pc : Reg.cg2 ≠ Reg.pc := by decide
@[simp] theorem Reg.cg2_ne_sp : Reg.cg2 ≠ Reg.sp := by decide
@[simp] theorem Reg.cg2_ne_sr : Reg.cg2 ≠ Reg.sr := by decide

end Sys2Proof

namespace Sys2Proof.Machine.State

variable (s : State) (i j : Reg) (v a : Word) (bw : Width)

theorem reg_setReg : (s.setReg i v).reg j = if i = j then v else s.reg j := by
  simp [setReg, reg, Vector.getElem_set, Fin.ext_iff]

@[simp] theorem reg_setReg_same : (s.setReg i v).reg i = v := by
  simp [reg_setReg]

@[simp] theorem reg_setReg_ne (h : j ≠ i) : (s.setReg i v).reg j = s.reg j := by
  simp [reg_setReg, Ne.symm h]

@[simp] theorem mem_setReg : (s.setReg i v).mem = s.mem := rfl
@[simp] theorem run_setReg : (s.setReg i v).run = s.run := rfl

@[simp] theorem reg_store : (s.store bw a v).reg i = s.reg i := rfl
@[simp] theorem mem_store : (s.store bw a v).mem = s.mem.store bw a v := rfl
@[simp] theorem run_store : (s.store bw a v).run = s.run := rfl

@[simp] theorem reg_raise (k : FatalKind) (w : Word) : (s.raise k w).reg i = s.reg i := rfl
@[simp] theorem mem_raise (k : FatalKind) (w : Word) : (s.raise k w).mem = s.mem := rfl
@[simp] theorem run_raise (k : FatalKind) (w : Word) :
    (s.raise k w).run = .halted { kind := k, addr := s.pc - 2#16, word := w } := rfl

@[simp] theorem pc_advance : s.advance.pc = s.pc + 2#16 := by simp [advance]
@[simp] theorem mem_advance : s.advance.mem = s.mem := rfl
@[simp] theorem run_advance : s.advance.run = s.run := rfl

theorem reg_advance_ne (h : j ≠ Reg.pc) : s.advance.reg j = s.reg j :=
  reg_setReg_ne s Reg.pc j _ h

@[simp] theorem mem_init : (s.init v).mem = s.mem := rfl
@[simp] theorem run_init : (s.init v).run = .running := rfl

/-- Two states with the same registers, memory and run state are the same. -/
theorem ext_reg {s t : State} (hr : ∀ i, s.reg i = t.reg i) (hm : s.mem = t.mem) (hn : s.run = t.run) :
    s = t := by
  cases s
  cases t
  simp only [mk.injEq]
  exact ⟨Vector.ext fun i hi => hr ⟨i, hi⟩, hm, hn⟩

end Sys2Proof.Machine.State
end

