-- ==== Sys2Proof/Laws/Memory.lean ====
section
/-! SUPPORT. The laws of memory: a read after a write, what a write leaves alone, and that every operation
keeps the canonical form. -/

namespace Sys2Proof.Machine.Memory

/-! ## One byte -/

theorem read_of_lt {m : Memory} {lo a : Nat} (h : wfFrom lo m = true) (ha : a < lo) :
    m.read a = unlisted := by
  induction m generalizing lo with
  | nil => rfl
  | cons c m ih =>
    simp only [wfFrom, Bool.and_eq_true, decide_eq_true_eq] at h
    simp only [read]
    rw [if_neg (by omega), ih h.2 (by omega)]

theorem wfFrom_mono {m : Memory} {lo lo' : Nat} (h : wfFrom lo m = true) (hl : lo' ≤ lo) :
    wfFrom lo' m = true := by
  cases m with
  | nil => rfl
  | cons c m =>
    simp only [wfFrom, Bool.and_eq_true, decide_eq_true_eq] at h ⊢
    exact ⟨⟨⟨by omega, h.1.1.2⟩, h.1.2⟩, h.2⟩

theorem wfFrom_write {m : Memory} {lo a : Nat} {b : Byte} (h : wfFrom lo m = true) (hl : lo ≤ a)
    (ha : a < Config.memSize) : wfFrom lo (m.write a b) = true := by
  induction m generalizing lo with
  | nil =>
    simp only [write]
    split
    · rfl
    · simp [wfFrom, *]
  | cons c m ih =>
    obtain ⟨k, c⟩ := c
    have h0 := h
    simp only [wfFrom, Bool.and_eq_true, decide_eq_true_eq] at h
    obtain ⟨⟨⟨h1, h2⟩, h3⟩, h4⟩ := h
    simp only [write]
    split
    · split
      · exact h0
      · simp only [wfFrom, Bool.and_eq_true, decide_eq_true_eq]
        exact ⟨⟨⟨hl, ha⟩, by simpa using ‹_›⟩, ⟨⟨by omega, h2⟩, h3⟩, h4⟩
    · split
      · split
        · exact wfFrom_mono h4 (by omega)
        · simp only [wfFrom, Bool.and_eq_true, decide_eq_true_eq]
          exact ⟨⟨⟨hl, ha⟩, by simpa using ‹_›⟩, wfFrom_mono h4 (by omega)⟩
      · simp only [wfFrom, Bool.and_eq_true, decide_eq_true_eq]
        exact ⟨⟨⟨h1, h2⟩, h3⟩, ih h4 (by omega)⟩

theorem wf_write {m : Memory} {a : Nat} {b : Byte} (h : m.wf = true) (ha : a < Config.memSize) :
    (m.write a b).wf = true :=
  wfFrom_write h (Nat.zero_le a) ha

theorem read_write_same_from {m : Memory} {lo a : Nat} {b : Byte} (h : wfFrom lo m = true) :
    (m.write a b).read a = b := by
  induction m generalizing lo with
  | nil => simp only [write]; split <;> simp_all [read]
  | cons c m ih =>
    obtain ⟨k, c⟩ := c
    simp only [wfFrom, Bool.and_eq_true, decide_eq_true_eq] at h
    simp only [write]
    split
    · split
      · rw [read, if_neg (by omega), read_of_lt h.2 (by omega)]; exact Eq.symm ‹_›
      · simp [read]
    · split
      · split
        · subst a; rw [read_of_lt h.2 (by omega)]; exact Eq.symm ‹_›
        · simp [read]
      · rw [read, if_neg ‹_›, ih h.2]

theorem read_write_same {m : Memory} {a : Nat} {b : Byte} (h : m.wf = true) : (m.write a b).read a = b :=
  read_write_same_from h

theorem read_write_ne {m : Memory} {a a' : Nat} {b : Byte} (h : a' ≠ a) :
    (m.write a b).read a' = m.read a' := by
  induction m with
  | nil => simp only [write]; split <;> simp [read, h]
  | cons c m ih =>
    obtain ⟨k, c⟩ := c
    simp only [write]
    split
    · split <;> simp [read, h]
    · split
      · split
        · subst a; simp [read, h]
        · subst a; simp [read, h]
      · simp only [read, ih]

/-- In the canonical form, memories that read alike are equal. -/
theorem ext_from {m m' : Memory} {lo : Nat} (h : wfFrom lo m = true) (h' : wfFrom lo m' = true)
    (hr : ∀ a, m.read a = m'.read a) : m = m' := by
  induction m generalizing lo m' with
  | nil =>
    cases m' with
    | nil => rfl
    | cons c m' =>
      simp only [wfFrom, Bool.and_eq_true, bne_iff_ne] at h'
      have := hr c.1
      simp only [read, if_true] at this
      exact absurd this.symm h'.1.2
  | cons c m ih =>
    obtain ⟨k, b⟩ := c
    have hm := h
    simp only [wfFrom, Bool.and_eq_true, decide_eq_true_eq, bne_iff_ne] at h
    cases m' with
    | nil =>
      have := hr k
      simp only [read, if_true] at this
      exact absurd this h.1.2
    | cons c' m' =>
      obtain ⟨k', b'⟩ := c'
      have hm' := h'
      simp only [wfFrom, Bool.and_eq_true, decide_eq_true_eq, bne_iff_ne] at h'
      have hk : k = k' := by
        rcases Nat.lt_trichotomy k k' with hlt | heq | hgt
        · have e := hr k
          rw [read, if_pos rfl, read, if_neg (by omega), read_of_lt h'.2 (by omega)] at e
          exact absurd e h.1.2
        · exact heq
        · have e := hr k'
          rw [read, if_neg (by omega), read_of_lt h.2 (by omega), read, if_pos rfl] at e
          exact absurd e.symm h'.1.2
      subst hk
      have hb := hr k
      simp only [read, if_true] at hb
      subst hb
      have tail : m = m' := ih h.2 h'.2 fun a => by
        by_cases ha : a ≤ k
        · rw [read_of_lt h.2 (by omega), read_of_lt h'.2 (by omega)]
        · have e := hr a
          rwa [read, if_neg (by omega), read, if_neg (by omega)] at e
      rw [tail]

theorem ext_of_wf {m m' : Memory} (h : m.wf = true) (h' : m'.wf = true)
    (hr : ∀ a, m.read a = m'.read a) : m = m' :=
  ext_from h h' hr

/-! ## Words -/

theorem toNat_lt_memSize (a : Word) : a.toNat < Config.memSize :=
  a.isLt

theorem next_toNat_ne (a : Word) : (next a).toNat ≠ a.toNat := by
  simp only [next, BitVec.toNat_add, BitVec.toNat_ofNat]
  omega

theorem wf_writeByte {m : Memory} {a : Word} {b : Byte} (h : m.wf = true) : (m.writeByte a b).wf = true :=
  wf_write h (toNat_lt_memSize a)

theorem wf_writeWord {m : Memory} {a v : Word} (h : m.wf = true) : (m.writeWord a v).wf = true :=
  wf_writeByte (wf_writeByte h)

theorem wf_store {m : Memory} {bw : Width} {a v : Word} (h : m.wf = true) : (m.store bw a v).wf = true := by
  cases bw
  · exact wf_writeWord h
  · exact wf_writeByte h

theorem wf_writeBytes {m : Memory} {a : Word} {bs : List Byte} (h : m.wf = true) :
    (m.writeBytes a bs).wf = true := by
  induction bs generalizing m a with
  | nil => exact h
  | cons b bs ih => exact ih (wf_writeByte h)

theorem read_writeWord_lo {m : Memory} {a v : Word} (h : m.wf = true) :
    (m.writeWord a v).read a.toNat = v.extractLsb' 0 8 := by
  rw [writeWord, writeByte, read_write_ne (next_toNat_ne a).symm]
  exact read_write_same h

theorem read_writeWord_hi {m : Memory} {a v : Word} (h : m.wf = true) :
    (m.writeWord a v).read (next a).toNat = v.extractLsb' 8 8 :=
  read_write_same (wf_writeByte h)

theorem read_writeWord_ne {m : Memory} {a v : Word} {x : Nat} (h : x ≠ a.toNat) (h' : x ≠ (next a).toNat) :
    (m.writeWord a v).read x = m.read x := by
  rw [writeWord, writeByte, read_write_ne h', writeByte, read_write_ne h]

end Sys2Proof.Machine.Memory
end

