-- ==== Sys2Proof/Laws/Operands.lean ====
section
/-! SUPPORT. Everything the resolvers and the write-back can do, once each: what they leave in memory, in
the run state and in every register. -/

namespace Sys2Proof.Machine

open Sys2Proof.Safety

/-! ## The constant generator -/

/-- Only registers 2 and 3 generate constants (R35). -/
theorem constOf_of_ne {op : Operand} (h2 : op.reg ≠ Reg.sr) (h3 : op.reg ≠ Reg.cg2) : constOf op = none := by
  simp [constOf, h2, h3]

theorem constOf_cg2 (m : SrcMode) : ∃ v, constOf ⟨Reg.cg2, m⟩ = some v := by
  cases m <;> exact ⟨_, rfl⟩

theorem constOf_sr {m : SrcMode} (h : m ≠ .register) : ∃ v, constOf ⟨Reg.sr, m⟩ = some v := by
  cases m
  · exact absurd rfl h
  all_goals exact ⟨_, rfl⟩

/-- An operand that is a constant moves nothing (R141). -/
theorem resolveSrc_const {op : Operand} {v : Word} (h : constOf op = some v) (bw : Width) (s : State) :
    resolveSrc bw op s = { loc := .const v, st := s } := by
  simp [resolveSrc, h]

/-! ## Resolution -/

/-- Resolving a source either moves nothing, moves PC past an offset word, or steps one register. -/
theorem resolveSrc_st (bw : Width) (op : Operand) (s : State) :
    (resolveSrc bw op s).st = s ∨
    ((resolveSrc bw op s).st = s.advance ∧ op.mode = .indexed) ∨
    ((resolveSrc bw op s).st = s.setReg op.reg (s.reg op.reg + autoStep bw op.reg) ∧
      op.mode = .autoinc ∧ constOf op = none) := by
  unfold resolveSrc
  split
  · exact .inl rfl
  · split <;> simp_all

theorem constOf_autoinc {op : Operand} (hm : op.mode = .autoinc) (hc : constOf op = none) :
    op.reg ≠ Reg.sr ∧ op.reg ≠ Reg.cg2 := by
  unfold constOf at hc
  constructor <;> intro h <;> rw [h, hm] at hc <;> exact absurd hc (by decide)

@[simp] theorem mem_resolveSrc (bw : Width) (op : Operand) (s : State) : (resolveSrc bw op s).st.mem = s.mem := by
  rcases resolveSrc_st bw op s with h | ⟨h, -⟩ | ⟨h, -⟩ <;> rw [h] <;> rfl

@[simp] theorem run_resolveSrc (bw : Width) (op : Operand) (s : State) : (resolveSrc bw op s).st.run = s.run := by
  rcases resolveSrc_st bw op s with h | ⟨h, -⟩ | ⟨h, -⟩ <;> rw [h] <;> rfl

/-- A register that is neither PC nor the one the operand steps keeps its value. -/
theorem reg_resolveSrc {bw : Width} {op : Operand} {s : State} {r : Reg} (hp : r ≠ Reg.pc)
    (hs : steps op ≠ some r) : (resolveSrc bw op s).st.reg r = s.reg r := by
  rcases resolveSrc_st bw op s with h | ⟨h, -⟩ | ⟨h, hm, hc⟩
  · rw [h]
  · rw [h, State.reg_advance_ne _ _ hp]
  · rw [h, State.reg_setReg_ne]
    rintro rfl
    obtain ⟨h2, h3⟩ := constOf_autoinc hm hc
    exact hs (by simp [steps, hm, hp, h2, h3])

/-- The register an operand steps: 2 more, 1 more in byte mode (R146). -/
theorem reg_resolveSrc_steps {bw : Width} {op : Operand} {s : State} {r : Reg} (hs : steps op = some r) :
    (resolveSrc bw op s).st.reg r = s.reg r + if bw = .word then 2#16 else 1#16 := by
  obtain ⟨i, m⟩ := op
  simp only [steps, Option.ite_none_right_eq_some, Option.some.injEq] at hs
  obtain ⟨⟨rfl, hp, h2, h3⟩, rfl⟩ := hs
  have hc : constOf ⟨i, .autoinc⟩ = none := constOf_of_ne (op := ⟨i, .autoinc⟩) h2 h3
  cases bw <;> simp [resolveSrc, hc, autoStep, hp]

theorem resolveDst_st (dst : Dest) (s : State) :
    (resolveDst dst s).st = s ∨ ((resolveDst dst s).st = s.advance ∧ dst.mode = .memory) := by
  unfold resolveDst
  split <;> simp_all

@[simp] theorem mem_resolveDst (dst : Dest) (s : State) : (resolveDst dst s).st.mem = s.mem := by
  rcases resolveDst_st dst s with h | ⟨h, -⟩ <;> rw [h] <;> rfl

@[simp] theorem run_resolveDst (dst : Dest) (s : State) : (resolveDst dst s).st.run = s.run := by
  rcases resolveDst_st dst s with h | ⟨h, -⟩ <;> rw [h] <;> rfl

theorem reg_resolveDst {dst : Dest} {s : State} {r : Reg} (hp : r ≠ Reg.pc) :
    (resolveDst dst s).st.reg r = s.reg r := by
  rcases resolveDst_st dst s with h | ⟨h, -⟩
  · rw [h]
  · rw [h, State.reg_advance_ne _ _ hp]

/-- A destination is never a constant (R149). -/
theorem resolveDst_not_const (dst : Dest) (s : State) (v : Word) : (resolveDst dst s).loc ≠ .const v := by
  unfold resolveDst
  split <;> simp

@[simp] theorem mem_resolveTwo (bw : Width) (src : Operand) (dst : Dest) (s : State) :
    (resolveTwo bw src dst s).st.mem = s.mem := by
  simp [resolveTwo]

@[simp] theorem run_resolveTwo (bw : Width) (src : Operand) (dst : Dest) (s : State) :
    (resolveTwo bw src dst s).st.run = s.run := by
  simp [resolveTwo]

theorem reg_resolveTwo {bw : Width} {src : Operand} {dst : Dest} {s : State} {r : Reg} (hp : r ≠ Reg.pc)
    (hs : steps src ≠ some r) : (resolveTwo bw src dst s).st.reg r = s.reg r := by
  simp only [resolveTwo]
  rw [reg_resolveDst hp, reg_resolveSrc hp hs]

theorem steps_ne_pc {op : Operand} {r : Reg} (hs : steps op = some r) : r ≠ Reg.pc := by
  simp only [steps, Option.ite_none_right_eq_some, Option.some.injEq] at hs
  exact hs.2 ▸ hs.1.2.1

/-- The register the source of two operands steps. -/
theorem reg_resolveTwo_steps {bw : Width} {src : Operand} {dst : Dest} {s : State} {r : Reg}
    (hs : steps src = some r) :
    (resolveTwo bw src dst s).st.reg r = s.reg r + if bw = .word then 2#16 else 1#16 := by
  simp only [resolveTwo]
  rw [reg_resolveDst (steps_ne_pc hs), reg_resolveSrc_steps hs]

/-! ## Write-back -/

@[simp] theorem run_writeLoc (bw : Width) (loc : Loc) (v : Word) (s : State) : (writeLoc bw loc v s).run = s.run := by
  cases loc <;> rfl

theorem reg_writeLoc_ne {bw : Width} {loc : Loc} {v : Word} {s : State} {r : Reg} (h : loc ≠ .reg r) :
    (writeLoc bw loc v s).reg r = s.reg r := by
  cases loc with
  | reg i => exact State.reg_setReg_ne _ _ _ _ (fun e => h (by rw [e]))
  | mem a => rfl
  | const c => rfl

/-- A byte of memory that a write-back does not store to keeps its value. -/
theorem read_writeLoc_ne {bw : Width} {loc : Loc} {v : Word} {s : State} {x : Nat}
    (h : x ∉ storedBytes bw loc) : (writeLoc bw loc v s).mem.read x = s.mem.read x := by
  cases loc with
  | reg i => rfl
  | const c => rfl
  | mem a =>
    cases bw with
    | word =>
      simp only [storedBytes, List.mem_cons, List.not_mem_nil, or_false, not_or] at h
      exact Memory.read_writeWord_ne h.1 h.2
    | byte =>
      simp only [storedBytes, List.mem_cons, List.not_mem_nil, or_false] at h
      exact Memory.read_write_ne h

theorem wf_writeLoc {bw : Width} {loc : Loc} {v : Word} {s : State} (h : s.mem.wf = true) :
    (writeLoc bw loc v s).mem.wf = true := by
  cases loc with
  | reg i => exact h
  | mem a => exact Memory.wf_store h
  | const c => exact h

end Sys2Proof.Machine
end

