-- ==== Sys2Proof/Laws/Flags.lean ====
section
/-! SUPPORT. The flag accessors bit by bit, and everything a flag write can do. -/

namespace Sys2Proof.Machine

open Sys2Proof.Safety

theorem getLsbD_putBit (w : Word) (p : Nat) (b : Bool) (i : Nat) (hp : p < 16) :
    (putBit w p b).getLsbD i = if i = p then b else w.getLsbD i := by
  simp only [putBit, BitVec.getLsbD_or, BitVec.getLsbD_and, BitVec.getLsbD_not, BitVec.getLsbD_shiftLeft,
    BitVec.getLsbD_setWidth, BitVec.getLsbD_ofBool, BitVec.getLsbD_one]
  by_cases hi : i < 16
  · by_cases h : i = p
    · subst h; simp [hi]
    · have : i < p ∨ i - p ≠ 0 := by omega
      rcases this with h' | h' <;> simp [hi, h, h']
  · have : i ≠ p := by omega
    simp [hi, this, BitVec.getLsbD_of_ge w i (by omega)]

theorem Flag.pos_lt (f : Flag) : f.pos < 16 := by
  cases f <;> decide

theorem Flag.pos_inj {f g : Flag} (h : f.pos = g.pos) : f = g := by
  cases f <;> cases g <;> simp_all [Flag.pos]

@[simp] theorem flag_setFlag_same (s : State) (f : Flag) (b : Bool) : (s.setFlag f b).flag f = b := by
  simp [State.flag, State.setFlag, getLsbD_putBit _ _ _ _ f.pos_lt]

theorem flag_setFlag_ne (s : State) {f g : Flag} (b : Bool) (h : g ≠ f) :
    (s.setFlag f b).flag g = s.flag g := by
  have : g.pos ≠ f.pos := fun e => h (Flag.pos_inj e)
  simp [State.flag, State.setFlag, getLsbD_putBit _ _ _ _ f.pos_lt, this]

@[simp] theorem mem_setFlag (s : State) (f : Flag) (b : Bool) : (s.setFlag f b).mem = s.mem := rfl
@[simp] theorem run_setFlag (s : State) (f : Flag) (b : Bool) : (s.setFlag f b).run = s.run := rfl

theorem reg_setFlag_ne (s : State) (f : Flag) (b : Bool) {r : Reg} (h : r ≠ Reg.sr) :
    (s.setFlag f b).reg r = s.reg r :=
  State.reg_setReg_ne _ _ _ _ h

@[simp] theorem mem_writeFlags (bw : Width) (o : AluResult) (s : State) : (writeFlags bw o s).mem = s.mem := rfl
@[simp] theorem run_writeFlags (bw : Width) (o : AluResult) (s : State) : (writeFlags bw o s).run = s.run := rfl

theorem reg_writeFlags_ne (bw : Width) (o : AluResult) (s : State) {r : Reg} (h : r ≠ Reg.sr) :
    (writeFlags bw o s).reg r = s.reg r := by
  simp only [writeFlags, updateZN, reg_setFlag_ne _ _ _ h]

/-- The four flags after a flag write. -/
theorem flagsAre_writeFlags (bw : Width) (o : AluResult) (s : State) :
    flagsAre o.carry (o.result == 0#16) (signBit bw o.result) o.overflow (writeFlags bw o s) := by
  refine ⟨?_, ?_, ?_, ?_⟩ <;> simp [writeFlags, updateZN, flag_setFlag_ne]

theorem otherBits_putBit (w : Word) (f : Flag) (b : Bool) : otherBits (putBit w f.pos b) = otherBits w := by
  apply BitVec.eq_of_getLsbD_eq
  intro i hi
  simp only [otherBits, BitVec.getLsbD_and, getLsbD_putBit _ _ _ _ f.pos_lt]
  split
  · subst i; cases f <;> simp [Flag.pos]
  · rfl

/-- A flag write leaves SR's other twelve bits alone (R29, R31). -/
theorem otherBits_writeFlags (bw : Width) (o : AluResult) (s : State) :
    otherBits (writeFlags bw o s).sr = otherBits s.sr := by
  simp [writeFlags, updateZN, State.setFlag, otherBits_putBit]

@[simp] theorem run_commit (bw : Width) (loc : Loc) (o : AluResult) (s : State) : (commit bw loc o s).run = s.run := by
  simp [commit]

theorem reg_commit_ne {bw : Width} {loc : Loc} {o : AluResult} {s : State} {r : Reg} (h : loc ≠ .reg r)
    (hs : r ≠ Reg.sr) : (commit bw loc o s).reg r = s.reg r := by
  rw [commit, reg_writeLoc_ne h, reg_writeFlags_ne _ _ _ hs]

theorem read_commit_ne {bw : Width} {loc : Loc} {o : AluResult} {s : State} {x : Nat}
    (h : x ∉ storedBytes bw loc) : (commit bw loc o s).mem.read x = s.mem.read x := by
  rw [commit, read_writeLoc_ne h, mem_writeFlags]

theorem wf_commit {bw : Width} {loc : Loc} {o : AluResult} {s : State} (h : s.mem.wf = true) :
    (commit bw loc o s).mem.wf = true :=
  wf_writeLoc h

end Sys2Proof.Machine
end

