-- ==== Sys2Proof/Laws/PerInstr.lean ====
section
/-! SUPPORT. Family Encoded, one lemma per instruction: the classifier gives the instruction word the shape
of its instruction (spec/30_encoding.md R100), and no instruction takes more than two extension words (R101). -/

namespace Sys2Proof.Laws.Encoded

def Statement (i : Instr) : Prop :=
  classify (encodeWord i) = i.shape ∧ i.extWords ≤ 2

theorem toNat_le_one (b : Bool) : b.toNat ≤ 1 := by
  cases b <;> decide

theorem classify_single {w : Word} (h : ∀ i, i < 6 → w.getLsbD (10 + i) = (0b000100#6).getLsbD i) :
    classify w = .singleOperand := by
  rw [classify, if_pos (field_eq h)]

theorem classify_jump {w : Word} (h : ∀ i, i < 3 → w.getLsbD (13 + i) = (0b001#3).getLsbD i) :
    classify w = .jump := by
  rw [classify, if_neg (field_ne 3 (by decide) (by rw [show 10 + 3 = 13 + 0 from rfl, h 0 (by decide)]; decide)),
    if_pos (field_eq h)]

theorem classify_two {w : Word} {i j : Nat} (hi : i < 6) (hj : j < 3)
    (h1 : w.getLsbD (10 + i) ≠ (0b000100#6).getLsbD i) (h2 : w.getLsbD (13 + j) ≠ (0b001#3).getLsbD j) :
    classify w = .twoOperand := by
  rw [classify, if_neg (field_ne i hi h1), if_neg (field_ne j hj h2)]

theorem top_single (opc1 : BitVec 3) (bw : Width) (op : Operand) :
    classify (singleWord opc1 bw op) = .singleOperand := by
  apply classify_single
  intro i hi
  simp only [singleWord, BitVec.getLsbD_or, getLsbD_put, BitVec.getLsbD_of_ge opc1 (10 + i - 7) (by omega),
    BitVec.getLsbD_of_ge bw.bits (10 + i - 6) (by omega), BitVec.getLsbD_of_ge op.mode.bits (10 + i - 4) (by omega),
    BitVec.getLsbD_of_ge (regBits op.reg) (10 + i - 0) (by omega)]
  simp [show 10 + i < 16 by omega]

theorem top_singleFatal (opc1 : BitVec 3) (rest : BitVec 7) :
    classify (singleFatalWord opc1 rest) = .singleOperand := by
  apply classify_single
  intro i hi
  simp only [singleFatalWord, BitVec.getLsbD_or, getLsbD_put, BitVec.getLsbD_of_ge opc1 (10 + i - 7) (by omega),
    BitVec.getLsbD_of_ge rest (10 + i - 0) (by omega)]
  simp [show 10 + i < 16 by omega]

theorem top_jump (cond : BitVec 3) (off : BitVec 10) : classify (jumpWord cond off) = .jump := by
  apply classify_jump
  intro i hi
  simp only [jumpWord, BitVec.getLsbD_or, getLsbD_put, BitVec.getLsbD_of_ge cond (13 + i - 10) (by omega),
    BitVec.getLsbD_of_ge off (13 + i - 0) (by omega)]
  simp [show 13 + i < 16 by omega]

/-- The top four bits of a two-operand word are its `opc2`. -/
theorem top_two (opc2 : BitVec 4) (bw : Width) (src : Operand) (dst : Dest) (i : Nat) (hi : i < 4) :
    (twoWord opc2 bw src dst).getLsbD (12 + i) = opc2.getLsbD i := by
  simp only [twoWord, BitVec.getLsbD_or, getLsbD_put, BitVec.getLsbD_of_ge (regBits src.reg) (12 + i - 8) (by omega),
    BitVec.getLsbD_of_ge dst.mode.bits (12 + i - 7) (by omega), BitVec.getLsbD_of_ge bw.bits (12 + i - 6) (by omega),
    BitVec.getLsbD_of_ge src.mode.bits (12 + i - 4) (by omega), BitVec.getLsbD_of_ge (regBits dst.reg) (12 + i - 0) (by omega)]
  simp [show 12 + i < 16 by omega]

theorem top_twoFatal (opc2 : BitVec 4) (rest : BitVec 12) (i : Nat) (hi : i < 4) :
    (twoFatalWord opc2 rest).getLsbD (12 + i) = opc2.getLsbD i := by
  simp only [twoFatalWord, BitVec.getLsbD_or, getLsbD_put, BitVec.getLsbD_of_ge rest (12 + i - 0) (by omega)]
  simp [show 12 + i < 16 by omega]

/-- A word whose top four bits are 0, or 4 and above, has the two-operand shape. -/
theorem classify_top {w : Word} {opc2 : BitVec 4} (h : ∀ i, i < 4 → w.getLsbD (12 + i) = opc2.getLsbD i)
    (ho : opc2 = 0#4 ∨ opc2.getLsbD 2 = true ∨ opc2.getLsbD 3 = true) : classify w = .twoOperand := by
  rcases ho with rfl | ho | ho
  · refine classify_two (i := 2) (j := 0) (by decide) (by decide) ?_ ?_
    · have := h 0 (by decide)
      simp_all
    · have := h 1 (by decide)
      simp_all
  · refine classify_two (i := 4) (j := 1) (by decide) (by decide) ?_ ?_ <;>
      (have := h 2 (by decide); simp_all)
  · refine classify_two (i := 5) (j := 2) (by decide) (by decide) ?_ ?_ <;>
      (have := h 3 (by decide); simp_all)

theorem two_le (src : Operand) (dst : Dest) : src.takesWord.toNat + dst.takesWord.toNat ≤ 2 :=
  Nat.add_le_add (toNat_le_one _) (toNat_le_one _)

theorem one_le (op : Operand) : op.takesWord.toNat ≤ 2 :=
  Nat.le_trans (toNat_le_one _) (by decide)

theorem rrc (bw : Width) (op : Operand) : Statement (.rrc bw op) := ⟨top_single _ bw op, one_le op⟩
theorem swpb (bw : Width) (op : Operand) : Statement (.swpb bw op) := ⟨top_single _ bw op, one_le op⟩
theorem rra (bw : Width) (op : Operand) : Statement (.rra bw op) := ⟨top_single _ bw op, one_le op⟩
theorem sxt (bw : Width) (op : Operand) : Statement (.sxt bw op) := ⟨top_single _ bw op, one_le op⟩
theorem push (bw : Width) (op : Operand) : Statement (.push bw op) := ⟨top_single _ bw op, one_le op⟩
theorem call (bw : Width) (op : Operand) : Statement (.call bw op) := ⟨top_single _ bw op, one_le op⟩
theorem reti (rest : BitVec 7) : Statement (.reti rest) := ⟨top_singleFatal _ rest, Nat.zero_le 2⟩
theorem unknownSingle7 (rest : BitVec 7) : Statement (.unknownSingle7 rest) := ⟨top_singleFatal _ rest, Nat.zero_le 2⟩
theorem jne (off : BitVec 10) : Statement (.jne off) := ⟨top_jump _ off, Nat.zero_le 2⟩
theorem jeq (off : BitVec 10) : Statement (.jeq off) := ⟨top_jump _ off, Nat.zero_le 2⟩
theorem jnc (off : BitVec 10) : Statement (.jnc off) := ⟨top_jump _ off, Nat.zero_le 2⟩
theorem jc (off : BitVec 10) : Statement (.jc off) := ⟨top_jump _ off, Nat.zero_le 2⟩
theorem jn (off : BitVec 10) : Statement (.jn off) := ⟨top_jump _ off, Nat.zero_le 2⟩
theorem jge (off : BitVec 10) : Statement (.jge off) := ⟨top_jump _ off, Nat.zero_le 2⟩
theorem jl (off : BitVec 10) : Statement (.jl off) := ⟨top_jump _ off, Nat.zero_le 2⟩
theorem jmp (off : BitVec 10) : Statement (.jmp off) := ⟨top_jump _ off, Nat.zero_le 2⟩
theorem mov (bw : Width) (src : Operand) (dst : Dest) : Statement (.mov bw src dst) :=
  ⟨classify_top (top_two _ bw src dst) (by decide), two_le src dst⟩
theorem add (bw : Width) (src : Operand) (dst : Dest) : Statement (.add bw src dst) :=
  ⟨classify_top (top_two _ bw src dst) (by decide), two_le src dst⟩
theorem addc (rest : BitVec 12) : Statement (.addc rest) :=
  ⟨classify_top (top_twoFatal _ rest) (by decide), Nat.zero_le 2⟩
theorem subc (rest : BitVec 12) : Statement (.subc rest) :=
  ⟨classify_top (top_twoFatal _ rest) (by decide), Nat.zero_le 2⟩
theorem sub (bw : Width) (src : Operand) (dst : Dest) : Statement (.sub bw src dst) :=
  ⟨classify_top (top_two _ bw src dst) (by decide), two_le src dst⟩
theorem cmp (bw : Width) (src : Operand) (dst : Dest) : Statement (.cmp bw src dst) :=
  ⟨classify_top (top_two _ bw src dst) (by decide), two_le src dst⟩
theorem dadd (rest : BitVec 12) : Statement (.dadd rest) :=
  ⟨classify_top (top_twoFatal _ rest) (by decide), Nat.zero_le 2⟩
theorem bit (rest : BitVec 12) : Statement (.bit rest) :=
  ⟨classify_top (top_twoFatal _ rest) (by decide), Nat.zero_le 2⟩
theorem bic (bw : Width) (src : Operand) (dst : Dest) : Statement (.bic bw src dst) :=
  ⟨classify_top (top_two _ bw src dst) (by decide), two_le src dst⟩
theorem bis (bw : Width) (src : Operand) (dst : Dest) : Statement (.bis bw src dst) :=
  ⟨classify_top (top_two _ bw src dst) (by decide), two_le src dst⟩
theorem xor (bw : Width) (src : Operand) (dst : Dest) : Statement (.xor bw src dst) :=
  ⟨classify_top (top_two _ bw src dst) (by decide), two_le src dst⟩
theorem and (bw : Width) (src : Operand) (dst : Dest) : Statement (.and bw src dst) :=
  ⟨classify_top (top_two _ bw src dst) (by decide), two_le src dst⟩
theorem unknownTwo0 (rest : BitVec 12) : Statement (.unknownTwo0 rest) :=
  ⟨classify_top (top_twoFatal _ rest) (by decide), Nat.zero_le 2⟩

theorem unknownTwo1Low (rest : BitVec 10) : Statement (.unknownTwo1Low rest) := by
  refine ⟨classify_two (i := 0) (j := 0) (by decide) (by decide) ?_ ?_, Nat.zero_le 2⟩ <;>
    (simp only [encodeWord, BitVec.getLsbD_or, getLsbD_put]; simp)

theorem unknownTwo1High (rest : BitVec 11) : Statement (.unknownTwo1High rest) := by
  refine ⟨classify_two (i := 1) (j := 0) (by decide) (by decide) ?_ ?_, Nat.zero_le 2⟩ <;>
    (simp only [encodeWord, BitVec.getLsbD_or, getLsbD_put]; simp)

end Sys2Proof.Laws.Encoded
end

