-- ==== Sys2Proof/Tests/Slice0.lean ====
section
/-! SUPPORT. Tests of the model, and the witnesses of its statements. Expected values are those of
spec/95_test_vectors.md, by the vector named (T1-01 and the like), or written out by hand from the rule
named; none was taken from a run of the model. -/

namespace Sys2Proof.Tests

open Sys2Proof.Machine Sys2Proof.Safety

/-! ## Helpers -/

/-- The start state of the vectors: PC = 8000, SP = 0400, every other register 0 but those listed, memory
0 but for the cells listed and the words stored from PC on. -/
def start (regs : List (Reg × Word)) (cells : List (Word × Width × Word)) (words : List Word) : State :=
  let s := (State.powerUp.setPc 0x8000#16).setSp 0x0400#16
  let s := regs.foldl (fun s (r, v) => s.setReg r v) s
  let s := cells.foldl (fun s (a, bw, v) => s.store bw a v) s
  { s with mem := s.mem.writeBytes s.pc (bytesOfWords words) }

/-- One step ends with these registers, these bytes or words of memory and this run state. -/
def steps1 (s : State) (regs : List (Reg × Word)) (cells : List (Word × Width × Word)) (run : RunState) : Bool :=
  match step s with
  | .next t =>
    regs.all (fun (r, v) => t.reg r == v) && cells.all (fun (a, bw, v) => t.mem.load bw a == v) && t.run == run
  | .fault _ => false
  | .refused _ => false

/-! ## WellFormed: the number of extension words -/

/-- R101: `MOV #imm, 2(R5)` takes two. -/
theorem test_wf_two_words :
    (Assembled.mk (.mov .word ⟨0, .autoinc⟩ ⟨5, .memory⟩) [0x1234#16, 2#16]).wellFormed = true := by decide

theorem test_wf_refuses_missing_word :
    (Assembled.mk (.mov .word ⟨0, .autoinc⟩ ⟨5, .memory⟩) [0x1234#16]).wellFormed = false := by decide

/-- R101: a constant of register 2 or 3 takes none. -/
theorem test_wf_refuses_word_for_constant :
    (Assembled.mk (.push .word ⟨2, .indexed⟩) [0x0200#16]).wellFormed = false := by decide

/-- R148: `&ADDR` as a destination takes one. -/
theorem test_wf_absolute_destination :
    (Assembled.mk (.mov .word ⟨5, .register⟩ ⟨2, .memory⟩) [0x0200#16]).wellFormed = true := by decide

theorem test_wf_refuses_word_after_jump : (Assembled.mk (.jmp 0#10) [0#16]).wellFormed = false := by decide

/-- R113: a fatal word takes none, whatever its fields say. -/
theorem test_wf_refuses_word_after_fatal : (Assembled.mk (.addc 0x596#12) [0#16]).wellFormed = false := by decide

/-! ## Decode: words written out from the formats -/

/-- R102, R109: 15:10 = 000100, 9:7 `opc1`, 6 `bw`, 5:4 `As`, 3:0 `reg`. -/
theorem test_decode_single :
    decodeWord 0b000100_000_0_00_0101#16 = .rrc .word ⟨5, .register⟩ ∧
    decodeWord 0b000100_001_1_01_1010#16 = .swpb .byte ⟨10, .indexed⟩ ∧
    decodeWord 0b000100_010_0_10_1111#16 = .rra .word ⟨15, .indirect⟩ ∧
    decodeWord 0b000100_011_1_11_1000#16 = .sxt .byte ⟨8, .autoinc⟩ ∧
    decodeWord 0b000100_100_0_11_0100#16 = .push .word ⟨4, .autoinc⟩ ∧
    decodeWord 0b000100_101_0_11_0000#16 = .call .word ⟨0, .autoinc⟩ ∧
    decodeWord 0b000100_110_0000000#16 = .reti 0#7 ∧
    decodeWord 0b000100_111_0110101#16 = .unknownSingle7 0b0110101#7 := by decide

/-- R103, R109: 15:13 = 001, 12:10 `cond`, 9:0 `off10`. -/
theorem test_decode_jump :
    decodeWord 0b001_000_1111111101#16 = .jne 0b1111111101#10 ∧
    decodeWord 0b001_001_0000000101#16 = .jeq 5#10 ∧
    decodeWord 0b001_010_1000000000#16 = .jnc 0x200#10 ∧
    decodeWord 0b001_011_0111111111#16 = .jc 0x1FF#10 ∧
    decodeWord 0b001_100_0000000001#16 = .jn 1#10 ∧
    decodeWord 0b001_101_0000000010#16 = .jge 2#10 ∧
    decodeWord 0b001_110_0000000100#16 = .jl 4#10 ∧
    decodeWord 0b001_111_1111111111#16 = .jmp 0x3FF#10 := by decide

/-- R104, R109: 15:12 `opc2`, 11:8 `sreg`, 7 `Ad`, 6 `bw`, 5:4 `As`, 3:0 `dreg`. -/
theorem test_decode_two :
    decodeWord 0b0100_0000_1_0_11_0010#16 = .mov .word ⟨0, .autoinc⟩ ⟨2, .memory⟩ ∧
    decodeWord 0b0101_0101_0_0_00_0110#16 = .add .word ⟨5, .register⟩ ⟨6, .register⟩ ∧
    decodeWord 0b1000_0101_0_1_10_0110#16 = .sub .byte ⟨5, .indirect⟩ ⟨6, .register⟩ ∧
    decodeWord 0b1001_0000_1_0_01_0101#16 = .cmp .word ⟨0, .indexed⟩ ⟨5, .memory⟩ ∧
    decodeWord 0b1100_1010_0_1_01_1011#16 = .bic .byte ⟨10, .indexed⟩ ⟨11, .register⟩ ∧
    decodeWord 0b1101_0000_1_1_11_0100#16 = .bis .byte ⟨0, .autoinc⟩ ⟨4, .memory⟩ ∧
    decodeWord 0b1110_0011_0_0_10_1001#16 = .xor .word ⟨3, .indirect⟩ ⟨9, .register⟩ ∧
    decodeWord 0b1111_1110_1_0_00_0001#16 = .and .word ⟨14, .register⟩ ⟨1, .memory⟩ := by decide

/-- R109: the two-operand words that halt. -/
theorem test_decode_fatal :
    decodeWord 0b0110_010110110110#16 = .addc 0x5B6#12 ∧
    decodeWord 0b0111_010100000110#16 = .subc 0x506#12 ∧
    decodeWord 0b1010_010100000110#16 = .dadd 0x506#12 ∧
    decodeWord 0b1011_010100000110#16 = .bit 0x506#12 ∧
    decodeWord 0b0000_111111111111#16 = .unknownTwo0 0xFFF#12 ∧
    decodeWord 0b000101_0000000000#16 = .unknownTwo1Low 0#10 ∧
    decodeWord 0b00011_11111111111#16 = .unknownTwo1High 0x7FF#11 := by decide

/-- R62, R107: bytes low first, the source's extension word before the destination's. -/
theorem test_decode_bytes :
    decode [0x94#8, 0x44#8, 0x02#8, 0x00#8, 0x08#8, 0x00#8, 0xEE#8] =
      .ok (⟨.mov .word ⟨4, .indexed⟩ ⟨4, .memory⟩, [2#16, 8#16]⟩, [0xEE#8]) := by rfl

theorem test_decode_refuses_half_a_word : decode [0x05#8] = .error .noInstructionWord := by rfl

theorem test_decode_refuses_missing_extension :
    decode [0xB0#8, 0x12#8, 0x00#8] = .error .noExtensionWord := by rfl

/-- 12B0 as a row of 16 bits: `CALL #0`, its extension word being zero. -/
theorem test_decode_table_word : decodeTableWord 16 0x12B0 = some (.call .word ⟨0, .autoinc⟩) := by rfl

/-- The row's instruction is the first to run after reset. -/
theorem test_with_fetch_word :
    steps1 (State.reset.withFetchWord 16 0x12B0) [(0, 0x0000)] [] .running = true ∧
    steps1 (State.reset.withFetchWord 16 0x1300) [(0, 0x0002)] []
      (.halted ⟨.notImplemented, 0x0000, 0x1300⟩) = true := by decide

/-! ## One step -/

/-- T1-02. -/
theorem test_rrc_carry_enters_at_bit_15 : steps1 (start [(5, 0x0001), (2, 0x0001)] [] [0x1005])
    [(0, 0x8002), (2, 0x0005), (5, 0x8000)] [] .running = true := by decide

/-- T1-05. -/
theorem test_rrc_byte_clears_the_high_byte : steps1 (start [(5, 0x1281), (2, 0x0001)] [] [0x1045])
    [(0, 0x8002), (2, 0x0005), (5, 0x00C0)] [] .running = true := by decide

/-- T1-12. -/
theorem test_swpb_keeps_flags : steps1 (start [(5, 0x1234), (2, 0x0107)] [] [0x1085])
    [(0, 0x8002), (2, 0x0107), (5, 0x3412)] [] .running = true := by decide

/-- T1-14. -/
theorem test_swpb_byte : steps1 (start [(5, 0x1234)] [] [0x10C5])
    [(0, 0x8002), (2, 0x0000), (5, 0x0000)] [] .running = true := by decide

/-- T1-07. -/
theorem test_rra_keeps_the_sign : steps1 (start [(5, 0x8001), (2, 0x0100)] [] [0x1105])
    [(0, 0x8002), (2, 0x0005), (5, 0xC000)] [] .running = true := by decide

/-- T1-25. -/
theorem test_rra_byte_steps_by_one : steps1 (start [(5, 0x0200)] [(0x0200, .word, 0x8002)] [0x1175])
    [(0, 0x8002), (2, 0x0000), (5, 0x0201)] [(0x0200, .word, 0x8001)] .running = true := by decide

/-- T1-15. -/
theorem test_sxt_negative : steps1 (start [(5, 0x0080), (2, 0x0100)] [] [0x1185])
    [(0, 0x8002), (2, 0x0005), (5, 0xFF80)] [] .running = true := by decide

/-- T1-18. -/
theorem test_sxt_byte : steps1 (start [(5, 0x0080)] [] [0x11C5])
    [(0, 0x8002), (2, 0x0005), (5, 0x0080)] [] .running = true := by decide

/-- T1-42. -/
theorem test_push_from_the_stack : steps1 (start [] [(0x03FE, .word, 0xAAAA)] [0x1231])
    [(0, 0x8002), (2, 0x0000), (1, 0x0400)] [(0x0400, .word, 0xAAAA)] .running = true := by decide

/-- T1-30. -/
theorem test_push_byte_keeps_the_high_byte : steps1 (start [(5, 0xBEEF)] [(0x03FE, .word, 0x1122)] [0x1245])
    [(0, 0x8002), (2, 0x0000), (1, 0x03FE)] [(0x03FE, .word, 0x11EF)] .running = true := by decide

/-- T1-44. -/
theorem test_call_immediate : steps1 (start [] [] [0x12B0, 0x9000])
    [(0, 0x9000), (2, 0x0000), (1, 0x03FE)] [(0x03FE, .word, 0x8004)] .running = true := by decide

/-- T1-50. -/
theorem test_call_through_the_stack : steps1 (start [] [(0x03FE, .word, 0x9300)] [0x12B1])
    [(0, 0x9300), (2, 0x0000), (1, 0x0400)] [(0x0400, .word, 0x8002)] .running = true := by decide

/-- T4-20. -/
theorem test_mov_pc_relative_both_ways : steps1 (start [] [(0x8014, .word, 0x1357)] [0x4090, 0x0010, 0x0020])
    [(0, 0x8006), (2, 0x0000)] [(0x8026, .word, 0x1357)] .running = true := by decide

/-- T4-17. -/
theorem test_mov_to_absolute_ignores_sr : steps1 (start [(5, 0xABCD), (2, 0x01FF)] [] [0x4582, 0x0200])
    [(0, 0x8004), (2, 0x01FF)] [(0x0200, .word, 0xABCD)] .running = true := by decide

/-- T2-04. -/
theorem test_add_carry_and_overflow : steps1 (start [(5, 0x8000), (6, 0x8000)] [] [0x5506])
    [(0, 0x8002), (2, 0x0103), (6, 0x0000)] [] .running = true := by decide

/-- T2-72. -/
theorem test_add_to_sr_wins_over_flags : steps1 (start [(5, 0xFFFF), (2, 0x0003)] [] [0x5502])
    [(0, 0x8002), (2, 0x0002)] [] .running = true := by decide

/-- T2-16. -/
theorem test_sub_overflow : steps1 (start [(5, 0x0001), (6, 0x8000)] [] [0x8506])
    [(0, 0x8002), (2, 0x0101), (6, 0x7FFF)] [] .running = true := by decide

/-- T2-22. -/
theorem test_sub_byte_borrow : steps1 (start [(5, 0x0001), (6, 0x1200)] [] [0x8546])
    [(0, 0x8002), (2, 0x0004), (6, 0x00FF)] [] .running = true := by decide

/-- T2-27. -/
theorem test_cmp_most_negative : steps1 (start [(5, 0x0001), (6, 0x8000)] [] [0x9506])
    [(0, 0x8002), (2, 0x0101), (6, 0x8000)] [] .running = true := by decide

/-- T2-73. -/
theorem test_cmp_against_sr : steps1 (start [(5, 0x0003), (2, 0x0003)] [] [0x9502])
    [(0, 0x8002), (2, 0x0003)] [] .running = true := by decide

/-- T2-32. -/
theorem test_bic : steps1 (start [(5, 0x00FF), (6, 0x0F0F), (2, 0x0107)] [] [0xC506])
    [(0, 0x8002), (2, 0x0107), (6, 0x0F00)] [] .running = true := by decide

/-- T2-57. -/
theorem test_bic_byte : steps1 (start [(5, 0x1280), (6, 0x34C1)] [] [0xC546])
    [(0, 0x8002), (2, 0x0000), (6, 0x0041)] [] .running = true := by decide

/-- T2-71. -/
theorem test_bis_sr : steps1 (start [(2, 0x0001)] [] [0xD232])
    [(0, 0x8002), (2, 0x0009)] [] .running = true := by decide

/-- T2-58. -/
theorem test_bis_byte : steps1 (start [(5, 0x1280), (6, 0x34C1)] [] [0xD546])
    [(0, 0x8002), (2, 0x0000), (6, 0x00C1)] [] .running = true := by decide

/-- T2-44. -/
theorem test_xor_both_negative : steps1 (start [(5, 0x8000), (6, 0xC000), (2, 0x0000)] [] [0xE506])
    [(0, 0x8002), (2, 0x0101), (6, 0x4000)] [] .running = true := by decide

/-- T2-39. -/
theorem test_xor_zero : steps1 (start [(5, 0x8001), (6, 0x8001), (2, 0x0000)] [] [0xE506])
    [(0, 0x8002), (2, 0x0102), (6, 0x0000)] [] .running = true := by decide

/-- T2-50. -/
theorem test_and_zero : steps1 (start [(5, 0x0000), (6, 0x0000), (2, 0x0101)] [] [0xF506])
    [(0, 0x8002), (2, 0x0002), (6, 0x0000)] [] .running = true := by decide

/-- T2-60. -/
theorem test_and_byte : steps1 (start [(5, 0x1280), (6, 0x34C1)] [] [0xF546])
    [(0, 0x8002), (2, 0x0005), (6, 0x0080)] [] .running = true := by decide

/-- T3-01 at SR = 0000. -/
theorem test_jne_taken : steps1 (start [(2, 0x0000)] [] [0x2005])
    [(0, 0x800C), (2, 0x0000)] [] .running = true := by decide

/-- T3-01 at SR = 0002. -/
theorem test_jne_not_taken : steps1 (start [(2, 0x0002)] [] [0x2005])
    [(0, 0x8002), (2, 0x0002)] [] .running = true := by decide

/-- T3-02 at SR = 0002. -/
theorem test_jeq_taken : steps1 (start [(2, 0x0002)] [] [0x2405])
    [(0, 0x800C), (2, 0x0002)] [] .running = true := by decide

/-- T3-02 at SR = FEF8. -/
theorem test_jeq_not_taken : steps1 (start [(2, 0xFEF8)] [] [0x2405])
    [(0, 0x8002), (2, 0xFEF8)] [] .running = true := by decide

/-- T3-03 at SR = 0004. -/
theorem test_jnc_taken : steps1 (start [(2, 0x0004)] [] [0x2805])
    [(0, 0x800C), (2, 0x0004)] [] .running = true := by decide

/-- T3-03 at SR = 0001. -/
theorem test_jnc_not_taken : steps1 (start [(2, 0x0001)] [] [0x2805])
    [(0, 0x8002), (2, 0x0001)] [] .running = true := by decide

/-- T3-04 at SR = 0001. -/
theorem test_jc_taken : steps1 (start [(2, 0x0001)] [] [0x2C05])
    [(0, 0x800C), (2, 0x0001)] [] .running = true := by decide

/-- T3-04 at SR = 0104. -/
theorem test_jc_not_taken : steps1 (start [(2, 0x0104)] [] [0x2C05])
    [(0, 0x8002), (2, 0x0104)] [] .running = true := by decide

/-- T3-05 at SR = 0004. -/
theorem test_jn_taken : steps1 (start [(2, 0x0004)] [] [0x3005])
    [(0, 0x800C), (2, 0x0004)] [] .running = true := by decide

/-- T3-05 at SR = 0100. -/
theorem test_jn_not_taken : steps1 (start [(2, 0x0100)] [] [0x3005])
    [(0, 0x8002), (2, 0x0100)] [] .running = true := by decide

/-- T3-06 at SR = 0104. -/
theorem test_jge_taken : steps1 (start [(2, 0x0104)] [] [0x3405])
    [(0, 0x800C), (2, 0x0104)] [] .running = true := by decide

/-- T3-06 at SR = 0100. -/
theorem test_jge_not_taken : steps1 (start [(2, 0x0100)] [] [0x3405])
    [(0, 0x8002), (2, 0x0100)] [] .running = true := by decide

/-- T3-07 at SR = 0100. -/
theorem test_jl_taken : steps1 (start [(2, 0x0100)] [] [0x3805])
    [(0, 0x800C), (2, 0x0100)] [] .running = true := by decide

/-- T3-07 at SR = 0104. -/
theorem test_jl_not_taken : steps1 (start [(2, 0x0104)] [] [0x3805])
    [(0, 0x8002), (2, 0x0104)] [] .running = true := by decide

/-- T3-13. -/
theorem test_jmp_backwards : steps1 (start [(0, 0x8000)] [] [0x3E00])
    [(0, 0x7C02)] [] .running = true := by decide

/-- T3-15. -/
theorem test_jmp_wraps : steps1 (start [(0, 0xFFF0)] [] [0x3DFF])
    [(0, 0x03F0)] [] .running = true := by decide

/-- T1-55. -/
theorem test_reti_halts : steps1 (start [(2, 0x0005), (15, 0x0200)] [] [0x137F])
    [(0, 0x8002), (2, 0x0005)] [] (.halted ⟨.notImplemented, 0x8000, 0x137F⟩) = true := by decide

/-- T1-57. -/
theorem test_unknown_single_halts : steps1 (start [(5, 0x0200)] [] [0x13B5])
    [(0, 0x8002), (2, 0x0000), (5, 0x0200)] [] (.halted ⟨.unknownOpcode, 0x8000, 0x13B5⟩) = true := by decide

/-- T5-05. -/
theorem test_addc_halts : steps1 (start [(5, 0x0200), (6, 0x0300), (2, 0x0107)] [] [0x65B6])
    [(0, 0x8002), (2, 0x0107), (5, 0x0200), (6, 0x0300)] [] (.halted ⟨.notImplemented, 0x8000, 0x65B6⟩) = true := by decide

/-- T5-02. -/
theorem test_subc_halts : steps1 (start [(5, 0x0200), (6, 0x0300), (2, 0x0107)] [] [0x7506])
    [(0, 0x8002), (2, 0x0107), (5, 0x0200), (6, 0x0300)] [] (.halted ⟨.notImplemented, 0x8000, 0x7506⟩) = true := by decide

/-- T5-03. -/
theorem test_dadd_halts : steps1 (start [(5, 0x0200), (6, 0x0300), (2, 0x0107)] [] [0xA506])
    [(0, 0x8002), (2, 0x0107), (5, 0x0200), (6, 0x0300)] [] (.halted ⟨.notImplemented, 0x8000, 0xA506⟩) = true := by decide

/-- T5-04. -/
theorem test_bit_halts : steps1 (start [(5, 0x0200), (6, 0x0300), (2, 0x0107)] [] [0xB506])
    [(0, 0x8002), (2, 0x0107), (5, 0x0200), (6, 0x0300)] [] (.halted ⟨.notImplemented, 0x8000, 0xB506⟩) = true := by decide

/-- T5-07. -/
theorem test_unknown_two_0_halts : steps1 (start [(5, 0x0200), (6, 0x0300), (2, 0x0107)] [] [0x0FFF])
    [(0, 0x8002), (2, 0x0107), (5, 0x0200), (6, 0x0300)] [] (.halted ⟨.unknownOpcode, 0x8000, 0x0FFF⟩) = true := by decide

/-- T5-08. -/
theorem test_unknown_two_1_low_halts : steps1 (start [(5, 0x0200), (6, 0x0300), (2, 0x0107)] [] [0x1400])
    [(0, 0x8002), (2, 0x0107), (5, 0x0200), (6, 0x0300)] [] (.halted ⟨.unknownOpcode, 0x8000, 0x1400⟩) = true := by decide

/-- T5-09. -/
theorem test_unknown_two_1_high_halts : steps1 (start [(5, 0x0200), (6, 0x0300), (2, 0x0107)] [] [0x1FFF])
    [(0, 0x8002), (2, 0x0107), (5, 0x0200), (6, 0x0300)] [] (.halted ⟨.unknownOpcode, 0x8000, 0x1FFF⟩) = true := by decide

/-! ## Operands -/

/-- T4-05, T4-07, T4-13: a byte read at an odd address, a byte autoincrement, a word read across 0xFFFF. -/
theorem test_operand_reads :
    steps1 (start [(4, 0x0201)] [(0x0200, .word, 0xCAFE)] [0x4465]) [(5, 0x00CA)] [] .running = true ∧
    steps1 (start [(4, 0x0200)] [(0x0200, .word, 0xCAFE)] [0x4475]) [(4, 0x0201), (5, 0x00FE)] [] .running = true ∧
    steps1 (start [(4, 0xFFFD)] [(0xFFFE, .word, 0xB200), (0x0000, .word, 0x00A1)] [0x4415, 0x0002])
      [(5, 0xA1B2)] [] .running = true := by decide

/-- T4-21, T4-23: the source is read and stepped before the destination is resolved. -/
theorem test_operand_order :
    steps1 (start [(5, 0x0200)] [(0x0200, .word, 0x0010)] [0x5535]) [(5, 0x0212)] [] .running = true ∧
    steps1 (start [(5, 0x0200)] [(0x0200, .word, 0x0010)] [0x45B5, 0x0000]) [(5, 0x0202)]
      [(0x0202, .word, 0x0010)] .running = true := by decide

/-- T2-75, T4-27, T4-31: R3 stores as a destination base and yields constants as a source. -/
theorem test_constant_registers :
    steps1 (start [(5, 0xAAAA), (3, 0x0200)] [] [0x4583, 0x0010]) [] [(0x0210, .word, 0xAAAA)] .running = true ∧
    steps1 (start [(5, 0x5555), (3, 0x7777)] [] [0x4305]) [(5, 0x0000), (3, 0x7777)] [] .running = true ∧
    steps1 (start [] [] [0x4375]) [(5, 0x00FF)] [] .running = true := by decide

/-- R173, R151 by hand: `RRA PC` at 8000 halves 8002 to the negative C001, which PC takes; `SWPB.B PC` writes the
byte 0 (R180). -/
theorem test_pc_as_single_operand :
    steps1 (start [] [] [0x1100]) [(0, 0xC001), (2, 0x0004)] [] .running = true ∧
    steps1 (start [] [] [0x10C0]) [(0, 0x0000), (2, 0x0000)] [] .running = true := by decide

/-! ## The assembler's view -/

/-- R116: the words of `NOP` and `RET`, and by R104 those of `SETC` (D312) and `ADC R5` (6305). -/
theorem test_pseudo_words :
    encode (Assembler.Pseudo.expand 0x8000 .nop) = [0x4303#16] ∧
    encode (Assembler.Pseudo.expand 0x8000 .ret) = [0x4130#16] ∧
    encode (Assembler.Pseudo.expand 0x8000 .setc) = [0xD312#16] ∧
    encode (Assembler.Pseudo.expand 0x8000 (.adc .word (.reg 5))) = [0x6305#16] := by decide

/-- T4-02, T4-16 and, for PC as the base, T4-20: `MOV label, label` with labels 8014 and 8026. -/
theorem test_assemble_operands :
    encode (Assembler.two (.mov .word) 0x8000 (.immediate 0x1234) (.reg 5)) = [0x4035#16, 0x1234#16] ∧
    encode (Assembler.two (.mov .word) 0x8000 (.reg 5) (.absolute 0x0200)) = [0x4582#16, 0x0200#16] ∧
    encode (Assembler.two (.mov .word) 0x8000 (.symbolic 0x8014) (.symbolic 0x8026)) =
      [0x4090#16, 0x0010#16, 0x0020#16] := by decide

/-- R115: `&A` as a source is the constant 0 and its word is not consumed (T4-18). -/
theorem test_absolute_source_is_not_consumed :
    (Assembler.two (.mov .word) 0x8000 (.absolute 0x0200) (.reg 5)).wellFormed = false := by decide

/-- T3-12, T3-13: from 8000, +511 reaches 8400 and -512 reaches 7C02. -/
theorem test_assemble_jump :
    Assembler.jumpTo 0x8000 0x8400 = 0x1FF#10 ∧ Assembler.jumpTo 0x8000 0x7C02 = 0x200#10 := by decide

/-! ## Memory, reset and the host -/

/-- T6-02, T6-03: mixed widths, and the wrap at 0xFFFF. -/
theorem test_memory :
    Memory.load (Memory.store (Memory.store [] .word 0x0200 0x1234) .byte 0x0200 0xABCD) .word 0x0200 = 0x12CD ∧
    Memory.read (Memory.store [] .word 0xFFFF 0xA1B2) 0x0000 = 0xA1#8 ∧
    Memory.read (Memory.store [] .word 0xFFFF 0xA1B2) 0xFFFF = 0xB2#8 := by decide

/-- Writing 0 back leaves the memory of power-up: equal memories are equal lists. -/
theorem test_memory_canonical :
    Memory.store (Memory.store [] .word 0x0200 0x1234) .word 0x0200 0x0000 = [] := by decide

/-- T6-06: the image 00 F0 FC FF ends at 0xFFFF, and `init` loads FFFC into PC. -/
theorem test_load_image :
    (match State.powerUp.loadImage [0x00#8, 0xF0#8, 0xFC#8, 0xFF#8] with
     | .next t => t.mem.read 0xFFFC == 0x00#8 && t.mem.read 0xFFFD == 0xF0#8 && (t.init 0x0400).pc == 0xFFFC#16
     | .fault _ => false
     | .refused _ => false) = true := by decide

/-- 93 U16: an image of no bytes is outside 1 ≤ L. -/
theorem test_load_image_refuses_nothing :
    (match State.powerUp.loadImage [] with
     | .refused r => r == .imageEmpty
     | .next _ => false
     | .fault _ => false) = true := by decide

/-- T5-13: a halted core steps to itself; `init` starts it again and changes PC, SP and the run state only. -/
theorem test_halt_and_init :
    let h := { start [(5, 0x0200)] [(0xFFFE, .word, 0x9000)] [] with run := .halted ⟨.unknownOpcode, 0x7FFE, 0x0000⟩ }
    steps1 h [(0, 0x8000), (5, 0x0200)] [] h.run = true ∧
    (h.init 0x0400).pc = 0x9000 ∧ (h.init 0x0400).sp = 0x0400 ∧ (h.init 0x0400).reg 5 = 0x0200 ∧
    (h.init 0x0400).run = .running := by decide

/-- R44, R45, R300: after reset PC is the word at 0xFFFE, which is 0, and SR is 0. -/
theorem test_reset : State.reset.pc = 0 ∧ State.reset.sr = 0 ∧ State.reset.mem = [] := by decide

/-- R280, R282: a breakpoint hit turns the driver to verbose mode, stops the timer and executes the
instruction. -/
theorem test_driver_breakpoint :
    let d : Driver := ⟨start [] [] [0x3C05], false, .normal, true, [0x8000], [7]⟩
    d.tick.1.mode = .verbose ∧ d.tick.1.timerRunning = false ∧ d.tick.1.core.pc = 0x800C := by decide

/-- R280, R284: verbose mode prints the full register state, R3's stored bits among it, before the step. -/
theorem test_driver_prints_every_register :
    (Driver.mk (start [(1, 0x0400), (3, 0x5555), (4, 0x1111), (15, 0x2222)] [] [0x3C05]) false .verbose true [] []).tick.2 =
      [.printed 0x8000 0x0400 (List.replicate 16 false) 0x5555 [0x1111, 0, 0, 0, 0, 0, 0, 0, 0, 0, 0, 0x2222]] := by
  decide

/-- R280: a tick while the driver is busy is dropped. -/
theorem test_driver_busy :
    (Driver.mk (start [] [] [0x3C05]) true .normal true [] []).tick.2 = [] := by decide

/-! ## The alternatives of the parameters (spec/93_implementation_defined.md; "Rows that change") -/

/-- T1-07 with RRA_SETS_C false: C keeps its start value. -/
theorem test_rra_sets_c_false : rraCarry false false 0x8001 = false ∧ rraCarry true false 0x8001 = true := by decide

/-- T1-44 with CALL_PUSHES after_opcode_word pushes 8002, else 8004. -/
theorem test_call_pushes :
    returnAddress .afterOpcodeWord 0x8002 0x8004 = 0x8002 ∧ returnAddress .afterOperands 0x8002 0x8004 = 0x8004 := by
  decide

/-- T1-28 with INDEX_PC_BASE before addresses 8102, else 8104: the base is 2 less. -/
theorem test_index_pc_base :
    indexBase .before 0 (start [(0, 0x8004)] [] []) = 0x8002 ∧ indexBase .after 0 (start [(0, 0x8004)] [] []) = 0x8004 := by
  decide

/-- T1-05 with BYTE_REG_WRITE preserve_high: 12C0, else 00C0. -/
theorem test_byte_reg_write :
    regWriteValue .preserveHigh .byte 0x1281 0x00C0 = 0x12C0 ∧ regWriteValue .zeroExtend .byte 0x1281 0x00C0 = 0x00C0 := by
  decide

/-! ## Witnesses: every statement's hypotheses are met -/

/-- A running state with bytes at both ends of memory, operands at 0x0200 and 0x0400, C and V set. -/
def w : State :=
  start [(2, 0x0101), (3, 0x5555), (4, 0x0200), (5, 0x0200), (6, 0x8001)]
    [(0xFFFF, .word, 0xA1B2), (0x0200, .word, 0x8081), (0x0400, .word, 0xC0DE)] []

/-- For the statements whose only premise is the canonical form of memory. -/
theorem witness_memory : w.mem.wf = true ∧ w.mem ≠ [] := by decide

/-- For WriteStoresItsBytesOnly, MixedWidthsSeeTheBytes and WordAccessAtTopWraps, at 0xFFFF and beside it. -/
theorem witness_memory_clauses :
    (w.mem.store .word 0xFFFF 0x1234).read 0xFFFF = 0x34#8 ∧ (w.mem.store .word 0xFFFF 0x1234).read 0 = 0x12#8 ∧
    (w.mem.store .word 0xFFFF 0x1234).read 1 = 0#8 ∧ (w.mem.store .byte 0xFFFF 0x1234).read 0 = 0xA1#8 ∧
    (w.mem.store .word 0xFFFE 0x1234).read 0 = 0xA1#8 ∧ (w.mem.store .byte 0 0x1234).read 0xFFFF = 0xB2#8 := by decide

/-- For SetFlagChangesOneBit and UpdateZNTouchesZAndNOnly: another flag, another bit, another register. -/
theorem witness_flags :
    Flag.C ≠ Flag.V ∧ 9 ≠ Flag.V.pos ∧ (1 : Reg) ≠ Reg.sr ∧ (w.setFlag .V false).sr = 0x0001 ∧
    (updateZN .byte 0x0080 w).sr = 0x0105 ∧ (updateZN .word 0x0000 w).sr = 0x0103 := by decide

/-- For SourceResolution and ConstantRegistersAsOperands: a constant, and a register that is none. -/
theorem witness_source :
    constOf ⟨3, .register⟩ = some 0 ∧ constOf ⟨2, .autoinc⟩ = some 8 ∧ constOf ⟨2, .register⟩ = none ∧
    (2 : Reg) ≠ 3 ∧ (0 : Reg) ≠ 2 ∧ SrcMode.indexed ≠ .register ∧
    (resolveSrc .byte ⟨0, .autoinc⟩ w).st.pc = 0x8002 ∧ (resolveSrc .byte ⟨4, .autoinc⟩ w).st.reg 4 = 0x0201 := by decide

/-- For DestinationResolution: register 2 is absolute, R3's stored value is added, and a base the source steps
is the stepped one (T4-23). -/
theorem witness_destination :
    (resolveDst ⟨2, .memory⟩ w).loc = .mem 0x0000 ∧ (resolveDst ⟨3, .memory⟩ w).loc = .mem 0x5555 ∧
    (resolveDst ⟨0, .memory⟩ w).loc = .mem 0x8002 ∧ (3 : Reg) ≠ 2 ∧
    (resolveTwo .word ⟨5, .autoinc⟩ ⟨5, .memory⟩ w).loc = .mem 0x0202 := by decide

/-- For WriteBackGoesToItsLocation: each kind of location, another register, a byte outside the stored ones. -/
theorem witness_write_back :
    w.mem.wf = true ∧ Loc.mem 0xFFFF ≠ .reg 4 ∧ 1 ∉ storedBytes .word (.mem 0xFFFF) ∧
    0 ∈ storedBytes .word (.mem 0xFFFF) ∧ 0 ∉ storedBytes .byte (.mem 0xFFFF) ∧
    writeLoc .word (.const 4) 0x1234 w = w := by decide

/-- For RrcRotatesThroughCarry, SwpbExchangesBytes, RraHalvesSigned and SxtExtendsTheSign: a location that is
not SR, in memory and in a register; and the operand that is SR. -/
theorem witness_single :
    w.mem.wf = true ∧ (resolveSrc .byte ⟨4, .autoinc⟩ w).loc = .mem 0x0200 ∧
    (resolveSrc .word ⟨6, .register⟩ w).loc ≠ .reg Reg.sr ∧ (resolveSrc .word ⟨2, .register⟩ w).loc = .reg Reg.sr ∧
    (resolveSrc .word ⟨2, .indirect⟩ w).loc = .const 4 := by decide

/-- For PushWritesAtTheNewTop and CallPushesReturnAddress: T1-42 and T1-50 step SP back, T1-30 does not; in
byte mode `@SP+` leaves SP one below where it was (R155). -/
theorem witness_stack :
    w.mem.wf = true ∧ steps ⟨1, .autoinc⟩ = some Reg.sp ∧ steps ⟨5, .autoinc⟩ = some 5 ∧ steps ⟨0, .autoinc⟩ = none ∧
    (resolveStackOperand .word ⟨1, .autoinc⟩ w).st.sp = 0x0400 ∧
    (resolveStackOperand .byte ⟨1, .autoinc⟩ w).st.sp = 0x03FF ∧
    (resolveStackOperand .word ⟨5, .autoinc⟩ w).st.sp = 0x03FE := by decide

/-- For MovCopies, AddSumsAndSetsFlags, SubSubtractsAndSetsFlags, BicClearsBits, BisSetsBits, XorAndItsFlags and
AndAndItsFlags: a location that is not SR, and one that is. -/
theorem witness_two :
    w.mem.wf = true ∧ (resolveTwo .word ⟨6, .register⟩ ⟨4, .memory⟩ w).loc = .mem 0x0200 ∧
    (resolveTwo .byte ⟨5, .autoinc⟩ ⟨6, .register⟩ w).loc ≠ .reg Reg.sr ∧
    (resolveTwo .word ⟨6, .register⟩ ⟨2, .register⟩ w).loc = .reg Reg.sr := by decide

/-- For CompareThenJump: JL and JGE part at the most negative destination, JEQ and JC at equality. -/
theorem witness_compare :
    signed .word 0x8000 < signed .word 0x0001 ∧ ¬ signed .word 0x0001 < signed .word 0x8000 ∧
    outOfRange .word (signed .word 0x8000 - signed .word 0x0001) = true ∧
    outOfRange .word (-32768) = false ∧ outOfRange .byte (-129) = true := by decide

/-- For RotateAndExtendFrame: a next state, the stepped register, one that is none of those named, a byte
outside. -/
theorem witness_rotate_frame :
    (∃ t, exec (.rrc .word ⟨4, .autoinc⟩) w = .next t) ∧ (∃ t, exec (.rra .word ⟨4, .autoinc⟩) w = .next t) ∧
    (∃ t, exec (.sxt .word ⟨4, .autoinc⟩) w = .next t ∧ t.reg 4 = 0x0202) ∧ steps ⟨4, .autoinc⟩ = some 4 ∧
    steps ⟨4, .autoinc⟩ ≠ some 5 ∧
    (resolveSrc .word ⟨4, .autoinc⟩ w).loc ≠ .reg 5 ∧
    0x0202 ∉ storedBytes .word (resolveSrc .word ⟨4, .autoinc⟩ w).loc :=
  ⟨⟨_, rfl⟩, ⟨_, rfl⟩, ⟨_, rfl, by decide⟩, by decide, by decide, by decide, by decide⟩

/-- For SwpbFrame: the stepped register (R146), and SR is one of the registers that stay. -/
theorem witness_swpb_frame :
    (∃ t, exec (.swpb .byte ⟨4, .autoinc⟩) w = .next t ∧ t.reg 4 = 0x0201) ∧ Reg.sr ≠ Reg.pc ∧ steps ⟨4, .autoinc⟩ ≠ some Reg.sr ∧
    (resolveSrc .byte ⟨4, .autoinc⟩ w).loc ≠ .reg Reg.sr ∧
    0x0201 ∉ storedBytes .byte (resolveSrc .byte ⟨4, .autoinc⟩ w).loc :=
  ⟨⟨_, rfl, by decide⟩, by decide, by decide, by decide, by decide⟩

/-- For StackFrame: the stepped register, and the bytes around the slots of PUSH.B and CALL. -/
theorem witness_stack_frame :
    (∃ t, exec (.push .byte ⟨5, .autoinc⟩) w = .next t ∧ t.reg 5 = 0x0201) ∧
    (∃ t, exec (.call .byte ⟨5, .autoinc⟩) w = .next t) ∧ Reg.sr ≠ Reg.sp ∧ (5 : Reg) ≠ Reg.sp ∧ steps ⟨5, .autoinc⟩ ≠ some Reg.sr ∧
    0x03FF ∉ storedBytes .byte (.mem (resolveStackOperand .byte ⟨5, .autoinc⟩ w).st.sp) ∧
    0x0400 ∉ storedBytes .word (.mem (resolveStackOperand .byte ⟨5, .autoinc⟩ w).st.sp) :=
  ⟨⟨_, rfl, by decide⟩, ⟨_, rfl⟩, by decide, by decide, by decide, by decide, by decide⟩

/-- For ArithmeticFrame, MoveFrame, CompareFrame: next states, the stepped register, one and a byte that stay. -/
theorem witness_two_frames :
    (∃ t, exec (.add .word ⟨5, .autoinc⟩ ⟨4, .memory⟩) w = .next t) ∧
    (∃ t, exec (.and .word ⟨5, .autoinc⟩ ⟨4, .memory⟩) w = .next t) ∧
    (∃ t, exec (.bic .word ⟨5, .autoinc⟩ ⟨4, .memory⟩) w = .next t) ∧
    (∃ t, exec (.cmp .word ⟨5, .autoinc⟩ ⟨4, .memory⟩) w = .next t ∧ t.reg 5 = 0x0202) ∧
    steps ⟨5, .autoinc⟩ = some 5 ∧ (resolveTwo .word ⟨5, .autoinc⟩ ⟨4, .memory⟩ w).loc ≠ .reg 5 ∧
    steps ⟨5, .autoinc⟩ ≠ some 6 ∧ (resolveTwo .word ⟨5, .autoinc⟩ ⟨4, .memory⟩ w).loc ≠ .reg 6 ∧
    0x0202 ∉ storedBytes .word (resolveTwo .word ⟨5, .autoinc⟩ ⟨4, .memory⟩ w).loc :=
  ⟨⟨_, rfl⟩, ⟨_, rfl⟩, ⟨_, rfl⟩, ⟨_, rfl, by decide⟩, by decide, by decide, by decide, by decide, by decide⟩

/-- For PcEndsAfterTheLastWord: no extension word, one, two. -/
theorem witness_pc :
    (resolveSrc .word ⟨0, .indexed⟩ w).loc ≠ .reg Reg.pc ∧ (⟨0, .memory⟩ : Dest) ≠ ⟨Reg.pc, .register⟩ ∧
    (∃ t, exec (.sxt .word ⟨0, .indexed⟩) w = .next t ∧ t.pc = 0x8002) ∧
    (∃ t, exec (.push .word ⟨0, .register⟩) w = .next t ∧ t.pc = 0x8000) ∧
    (∃ t, exec (.mov .word ⟨0, .autoinc⟩ ⟨4, .memory⟩) w = .next t ∧ t.pc = 0x8004) :=
  ⟨by decide, by decide, ⟨_, rfl, by decide⟩, ⟨_, rfl, by decide⟩, ⟨_, rfl, by decide⟩⟩

/-- For JumpReachAndParity: both ends of the reach, from a jump fetched at 7FFE (R240), and a
conditional jump not taken. -/
theorem witness_jump :
    (∃ t, exec (.jmp 0x200#10) w = .next t ∧ t.pc = 0x7FFE - 1022) ∧
    (∃ t, exec (.jc 0x1FF#10) w = .next t ∧ t.pc = 0x7FFE + 1024) ∧
    (∃ t, exec (.jeq 0x1FF#10) w = .next t ∧ t.pc = 0x7FFE + 2) :=
  ⟨⟨_, rfl, by decide⟩, ⟨_, rfl, by decide⟩, ⟨_, rfl, by decide⟩⟩

/-- For AssembledJumpGoesToItsTarget: both ends of the range. -/
theorem witness_assembled_jump :
    w.pc = 0x7FFE + 2#16 ∧ (0x83FE - w.pc).getLsbD 0 = false ∧ (0x83FE - w.pc).toInt = 1022 ∧
    (0x7C00 - w.pc).getLsbD 0 = false ∧ (0x7C00 - w.pc).toInt = -1024 := by decide

/-- For ExactlyTheListedWordsHalt: each range at both ends, and the words beside it (R261, R263). -/
theorem witness_listed_words :
    [0x0000#16, 0x0FFF#16, 0x1380#16, 0x13FF#16, 0x1400#16, 0x1FFF#16].all
      (fun x => fatalKind (decodeWord x) == some .unknownOpcode) = true ∧
    [0x1300#16, 0x137F#16, 0x6000#16, 0x7FFF#16, 0xA000#16, 0xBFFF#16].all
      (fun x => fatalKind (decodeWord x) == some .notImplemented) = true ∧
    [0x1000#16, 0x12FF#16, 0x2000#16, 0x5FFF#16, 0x8000#16, 0x9FFF#16, 0xC000#16, 0xFFFF#16].all
      (fun x => fatalKind (decodeWord x) == none) = true ∧
    w.run = .running ∧ (∃ t, step w = .next t) :=
  ⟨by decide, by decide, by decide, by decide, ⟨_, rfl⟩⟩

/-- For HaltingStepChangesOnlyPc: memory at PC holds 0000. -/
theorem witness_halting_step :
    w.run = .running ∧ fatalKind (decodeWord (w.mem.readWord w.pc)) = some .unknownOpcode ∧
    fatalKind (decodeWord ((start [] [] [0xB506]).mem.readWord 0x8000)) = some .notImplemented := by decide

/-- For HaltIsLatched. -/
theorem witness_halted : ({ w with run := .halted ⟨.notImplemented, 0x7FFE, 0x1300⟩ } : State).run =
    .halted ⟨.notImplemented, 0x7FFE, 0x1300⟩ := by decide

/-- For StepRunsTheDecodedInstruction: `CALL #9000` at PC. -/
theorem witness_step_decodes :
    let s := start [] [] [0x12B0, 0x9000]
    s.run = .running ∧ s.mem.readWord s.pc = encodeWord (.call .word ⟨0, .autoinc⟩) ∧
    decode (bytesAt s.mem s.pc 6) = .ok (⟨.call .word ⟨0, .autoinc⟩, [0x9000#16]⟩, [0#8, 0#8]) :=
  ⟨by decide, by decide, by rfl⟩

/-- For StepAlwaysAnswersANextState and StepKeepsInvariant: a running state and a halted one. -/
theorem witness_invariant :
    inv w = true ∧ w.run = .running ∧ (∃ t, step w = .next t) ∧
    inv { w with run := .halted ⟨.notImplemented, 0x7FFE, 0x1300⟩ } = true ∧
    inv { w with run := .halted ⟨.notImplemented, 0x8000, 0x1300⟩ } = false :=
  ⟨by decide, by decide, ⟨_, rfl⟩, by decide, by decide⟩

/-- For OtherStatusBitsAreInert: `&ADDR` and a constant of register 2 name no register SR; `MOV SR, R4` does. -/
theorem witness_other_bits :
    namesSr (.mov .word ⟨2, .autoinc⟩ ⟨2, .memory⟩) = false ∧ namesSr (.mov .word ⟨2, .register⟩ ⟨4, .register⟩) = true ∧
    (∃ t, exec (.add .word ⟨2, .autoinc⟩ ⟨2, .memory⟩) w = .next t) ∧ (withOtherBits 0xFFFF w).sr = 0xFFF9 :=
  ⟨by decide, by decide, ⟨_, rfl⟩, by decide⟩

/-- For DecodeOfLaidOutInstruction. -/
theorem witness_laid_out :
    (Assembled.mk (.add .byte ⟨10, .indexed⟩ ⟨2, .memory⟩) [0xFFFE#16, 0x0200#16]).wellFormed = true := by decide

/-- For ClassifierGivesTheShape: both ends of each range. -/
theorem witness_classifier :
    classify 0x0FFF = .twoOperand ∧ classify 0x1000 = .singleOperand ∧ classify 0x13FF = .singleOperand ∧
    classify 0x1400 = .twoOperand ∧ classify 0x1FFF = .twoOperand ∧ classify 0x2000 = .jump ∧
    classify 0x3FFF = .jump ∧ classify 0x4000 = .twoOperand := by decide

/-- For InitLoadsPcAndSp: a register that is neither PC nor SP. -/
theorem witness_init : (w.init 0x0400).pc = 0xB200 ∧ Reg.sr ≠ Reg.pc ∧ Reg.sr ≠ Reg.sp := by decide

/-- For ImageIsTopAligned: an image of one byte and one of two. -/
theorem witness_image :
    w.mem.wf = true ∧ 1 ≤ [0x5A#8].length ∧ [0x5A#8, 0xF0#8].length ≤ 65536 ∧
    [0x5A#8, 0xF0#8][[0x5A#8, 0xF0#8].length - 2]? = some 0x5A#8 ∧ 65534 < 65536 - [0x5A#8].length := by decide

/-- For ImageIsTopAligned, at the greatest length: the image fills memory. -/
theorem witness_image_full :
    let image := List.replicate 65536 0x5A#8
    w.mem.wf = true ∧ 1 ≤ image.length ∧ image.length ≤ 65536 ∧ image[65535]? = some 0x5A#8 ∧
    ¬ 0 < 65536 - image.length := by
  intro image
  have h : image.length = 65536 := List.length_replicate ..
  have last : image[65535]? = some 0x5A#8 :=
    List.getElem?_eq_some_iff.mpr ⟨by omega, List.getElem_replicate ..⟩
  exact ⟨by decide, by omega, by omega, last, by omega⟩

/-- For CallThenReturn and PushThenPop: an operand that is not `@SP+`, and the return in the state CALL left. -/
theorem witness_stack_round_trip :
    w.mem.wf = true ∧ steps ⟨0, .autoinc⟩ ≠ some Reg.sp ∧ steps ⟨1, .indirect⟩ ≠ some Reg.sp ∧ (4 : Reg) ≠ Reg.sp ∧
    (∃ t, exec (.call .word ⟨0, .autoinc⟩) w = .next t ∧ t.sp = 0x03FE) :=
  ⟨by decide, by decide, by decide, by decide, ⟨_, rfl, by decide⟩⟩

/-- For TickMakesOneStep: busy and not, with a breakpoint at PC and without, a step that raises and one that
does not. -/
theorem witness_tick :
    let d : Driver := ⟨w, false, .normal, true, [0x8000], [1]⟩
    let e : Driver := ⟨start [] [] [0x3C05], false, .normal, true, [0x8002], [1]⟩
    d.busy = false ∧ { d with busy := true }.busy = true ∧ d.core.pc ∈ d.breakpoints ∧
    d.core.run = .running ∧ d.tick.1.core.run = .halted ⟨.unknownOpcode, 0x8000, 0x0000⟩ ∧
    e.core.pc ∉ e.breakpoints ∧ e.tick.1.core.run = e.core.run := by decide

end Sys2Proof.Tests
end

section
/-! The flag accessors against spec/10_state.md R28 and R29. -/

namespace Sys2Proof.Machine

/-- `putBit` is R29's masking formula, the flag's value being the word 1 or 0. -/
theorem putBit_eq_mask_or (w : Word) (p : Nat) (b : Bool) :
    putBit w p b = (w &&& ~~~(1#16 <<< p)) ||| ((if b then 1#16 else 0#16) <<< p) := by
  cases b <;> rfl

@[simp] theorem sr_setFlag (s : State) (f : Flag) (b : Bool) : (s.setFlag f b).sr = putBit s.sr f.pos b :=
  State.reg_setReg_same ..

/-- A flag write leaves every bit of SR but the flag's own. -/
theorem getLsbD_sr_setFlag_ne (s : State) (f : Flag) (b : Bool) {i : Nat} (h : i ≠ f.pos) :
    (s.setFlag f b).sr.getLsbD i = s.sr.getLsbD i := by
  rw [sr_setFlag, getLsbD_putBit _ _ _ _ f.pos_lt, if_neg h]

/-- Settles O6: the formula is `putBit`'s own, and each of the other parts is a rule of the flag write. -/
theorem setFlagChangesOneBit : Obligations.SetFlagChangesOneBit := by
  intro s f b
  have formula := (sr_setFlag s f b).trans (putBit_eq_mask_or s.sr f.pos b)
  exact ⟨formula, flag_setFlag_same s f b, fun _ => flag_setFlag_ne s b,
    fun _ => getLsbD_sr_setFlag_ne s f b, fun _ => reg_setFlag_ne s f b,
    mem_setFlag s f b, run_setFlag s f b⟩

/-- Settles O5: `State.flag` reads SR, register 2, at `Flag.pos`, which is R28's table. -/
theorem flagsSitAtTheirBits : Obligations.FlagsSitAtTheirBits :=
  fun _ => ⟨rfl, rfl, rfl, rfl⟩

end Sys2Proof.Machine
end

section
/-! Reads of memory as numbers, against spec/20_memory.md R63 and R66. -/

namespace Sys2Proof.Machine

/-- The two bytes do not overlap, so the `or` that joins them is a sum (R62). -/
theorem toNat_wordOfBytes (lo hi : Byte) : (wordOfBytes lo hi).toNat = lo.toNat + 256 * hi.toNat := by
  have high : (hi.setWidth 16 <<< 8).toNat = hi.toNat <<< 8 := by
    simp only [BitVec.toNat_shiftLeft, BitVec.toNat_setWidth, Nat.shiftLeft_eq]
    omega
  have low : (lo.setWidth 16).toNat = lo.toNat := BitVec.toNat_setWidth_of_le (by decide)
  calc (wordOfBytes lo hi).toNat
    _ = hi.toNat <<< 8 ||| lo.toNat := by rw [wordOfBytes, BitVec.toNat_or, high, low]
    _ = hi.toNat <<< 8 + lo.toNat := (Nat.shiftLeft_add_eq_or_of_lt lo.isLt _).symm
    _ = lo.toNat + 256 * hi.toNat := by rw [Nat.shiftLeft_eq]; omega

namespace Memory

/-- The address after `a` wraps at 65536 (R66). -/
theorem toNat_next (a : Word) : (next a).toNat = (a.toNat + 1) % 65536 :=
  BitVec.toNat_add a 1#16

theorem toNat_load_byte (m : Memory) (a : Word) : (m.load .byte a).toNat = (m.read a.toNat).toNat :=
  BitVec.toNat_setWidth_of_le (by decide)

theorem toNat_readWord (m : Memory) (a : Word) :
    (m.readWord a).toNat = (m.read a.toNat).toNat + 256 * (m.read ((a.toNat + 1) % 65536)).toNat := by
  rw [readWord, toNat_wordOfBytes, readByte, readByte, toNat_next]

end Memory

/-- Settles O1: a byte load widens the stored byte, a word load is `readWord`, whose high byte comes from the
address after `a`. -/
theorem wordReadIsLittleEndian : Obligations.WordReadIsLittleEndian :=
  fun m a => ⟨m.toNat_load_byte a, m.toNat_readWord a⟩

end Sys2Proof.Machine
end

section
/-! The instruction words whose low bits the core ignores: what they are as numbers. -/

namespace Sys2Proof

section
variable {m n : Nat} (top : BitVec m) (rest : BitVec n)

/-- Two fields side by side from bit 0 up are the fields appended. -/
theorem put_or_put_eq_append : put top n ||| put rest 0 = (top ++ rest).setWidth 16 := by
  apply BitVec.eq_of_getLsbD_eq
  intro i hi
  rw [BitVec.getLsbD_or, getLsbD_put, getLsbD_put, BitVec.getLsbD_setWidth, BitVec.getLsbD_append]
  by_cases h : i < n
  · simp [hi, h]
  · simp [hi, h, BitVec.getLsbD_of_ge rest i (Nat.le_of_not_lt h)]

theorem put_or_put_eq_ofNat :
    put top n ||| put rest 0 = BitVec.ofNat 16 (top.toNat * 2 ^ n + rest.toNat) := by
  rw [put_or_put_eq_append, ← BitVec.ofNat_toNat, BitVec.toNat_append,
    ← Nat.shiftLeft_add_eq_or_of_lt rest.isLt, Nat.shiftLeft_eq]

theorem field_put_or_put (h : n ≤ 16) : field (put top n ||| put rest 0) 0 n = rest := by
  apply field_eq
  intro i hi
  rw [Nat.zero_add, BitVec.getLsbD_or, getLsbD_put, getLsbD_put]
  simp [hi, Nat.lt_of_lt_of_le hi h]

end

/-- The shape's six bits and `opc1` are one fixed top of nine bits (R102). -/
theorem singleFatalWord_eq (opc1 : BitVec 3) (rest : BitVec 7) :
    singleFatalWord opc1 rest = put (0b000100#6 ++ opc1) 7 ||| put rest 0 := by
  have top : put 0b000100#6 10 ||| put opc1 7 = put (0b000100#6 ++ opc1) 7 := by
    revert opc1
    decide
  rw [singleFatalWord, top]

theorem encodeWord_reti (rest : BitVec 7) : encodeWord (.reti rest) = BitVec.ofNat 16 (0x1300 + rest.toNat) :=
  (singleFatalWord_eq 6#3 rest).trans (put_or_put_eq_ofNat _ rest)

theorem encodeWord_unknownSingle7 (rest : BitVec 7) :
    encodeWord (.unknownSingle7 rest) = BitVec.ofNat 16 (0x1380 + rest.toNat) :=
  (singleFatalWord_eq 7#3 rest).trans (put_or_put_eq_ofNat _ rest)

theorem encodeWord_unknownTwo0 (rest : BitVec 12) :
    encodeWord (.unknownTwo0 rest) = BitVec.ofNat 16 rest.toNat :=
  (put_or_put_eq_ofNat 0#4 rest).trans (congrArg _ (Nat.zero_add rest.toNat))

theorem encodeWord_unknownTwo1Low (rest : BitVec 10) :
    encodeWord (.unknownTwo1Low rest) = BitVec.ofNat 16 (0x1400 + rest.toNat) :=
  put_or_put_eq_ofNat 0b000101#6 rest

theorem encodeWord_unknownTwo1High (rest : BitVec 11) :
    encodeWord (.unknownTwo1High rest) = BitVec.ofNat 16 (0x1800 + rest.toNat) :=
  put_or_put_eq_ofNat 0b00011#5 rest

end Sys2Proof
end

section
/-! Fatal instructions: each is decoded from its own word, and its meaning is the halt of
spec/60_exceptions.md R262 (spec/41_single_operand.md R177, R178; spec/42_two_operand.md R203, R213, R214). -/

namespace Sys2Proof.Machine

open Sys2Proof.Safety

variable {i : Instr} {k : FatalKind}

/-- The fixed top of a fatal word selects its row, and the row's field is the free rest. -/
theorem decodeWord_encodeWord_of_fatal (h : fatalKind i = some k) : decodeWord (encodeWord i) = i := by
  cases i <;> cases h
  case addc | subc | dadd | bit | unknownTwo0 =>
    simp [encodeWord, twoFatalWord, decodeWord, field_put_or_put, -BitVec.getLsbD_eq_getElem]
  case reti | unknownSingle7 =>
    simp [encodeWord, singleFatalWord_eq, decodeWord, decodeTop1, decodeSingle, field_put_or_put,
      -BitVec.getLsbD_eq_getElem]
  case unknownTwo1Low | unknownTwo1High =>
    simp [encodeWord, decodeWord, decodeTop1, field_put_or_put, -BitVec.getLsbD_eq_getElem]

theorem exec_of_fatal (h : fatalKind i = some k) (s : State) : exec i s = .next (s.raise k (encodeWord i)) := by
  cases i <;> cases h <;> rfl

/-- A fatal instruction's word decodes to it, and it changes the run state alone. -/
theorem halts_of_fatal (h : fatalKind i = some k) {w : Word} (hw : encodeWord i = w) (s : State) :
    decodeWord w = i ∧
    ∃ t, exec i s = .next t ∧ t.run = .halted ⟨k, s.pc - 2#16, w⟩ ∧ (∀ r, t.reg r = s.reg r) ∧ t.mem = s.mem := by
  subst hw
  exact ⟨decodeWord_encodeWord_of_fatal h, _, exec_of_fatal h s, s.run_raise k _, fun r => s.reg_raise r k _,
    s.mem_raise k _⟩

end Sys2Proof.Machine
end

section
/-! RETI and the unknown rows, against spec/41_single_operand.md R177, R178 and spec/42_two_operand.md R213, R214. -/

namespace Sys2Proof.Machine

/-- Settles O39: each of the five rows is fatal, and its word is the row's base plus the ignored low bits. -/
theorem retiAndUnknownWordsHalt : Obligations.RetiAndUnknownWordsHalt := by
  intro s b7 b10 b11 b12
  exact ⟨halts_of_fatal rfl (encodeWord_reti b7) s, halts_of_fatal rfl (encodeWord_unknownSingle7 b7) s,
    halts_of_fatal rfl (encodeWord_unknownTwo0 b12) s, halts_of_fatal rfl (encodeWord_unknownTwo1Low b10) s,
    halts_of_fatal rfl (encodeWord_unknownTwo1High b11) s⟩

end Sys2Proof.Machine
end

section
/-! Values at a width: what a location is read as, and what a write-back leaves in it, against
spec/40_operand_resolution.md R150 and R151. -/

namespace Sys2Proof.Machine

open Sys2Proof.Safety

theorem mask_word : mask .word = BitVec.allOnes 16 := rfl

@[simp] theorem and_mask_word (v : Word) : v &&& mask .word = v := by
  rw [mask_word, BitVec.and_allOnes]

@[simp] theorem and_mask_and_mask (bw : Width) (v : Word) : v &&& mask bw &&& mask bw = v &&& mask bw := by
  rw [BitVec.and_assoc, BitVec.and_self]

@[simp] theorem setWidth_and_mask_byte (b : Byte) : b.setWidth 16 &&& mask .byte = b.setWidth 16 := by
  revert b
  decide

/-- A value read at a width has no bit above the width, whatever its location (R150). -/
@[simp] theorem readLoc_and_mask (bw : Width) (loc : Loc) (s : State) :
    readLoc bw loc s &&& mask bw = readLoc bw loc s := by
  cases loc with
  | reg i => exact and_mask_and_mask bw _
  | const v => exact and_mask_and_mask bw v
  | mem a =>
    cases bw with
    | word => exact and_mask_word _
    | byte => exact setWidth_and_mask_byte _

/-- After a write-back the location holds the value reduced to the width (R151). -/
theorem holds_writeLoc {s : State} (hm : s.mem.wf = true) (bw : Width) (loc : Loc) (v : Word) :
    holds bw loc (v &&& mask bw) (writeLoc bw loc v s) := by
  cases loc with
  | const c => exact trivial
  | reg i =>
    cases bw with
    | word => exact (State.reg_setReg_same s i v).trans (and_mask_word v).symm
    | byte => exact State.reg_setReg_same s i _
  | mem a =>
    cases bw with
    | word => exact ⟨Memory.read_writeWord_lo hm, fun _ => Memory.read_writeWord_hi hm⟩
    | byte => exact ⟨Memory.read_write_same hm, fun h => by cases h⟩

end Sys2Proof.Machine
end

section
/-! The common path of the two-operand instructions (spec/42_two_operand.md R200): the top of the word, and
what a write-back that sets no flags leaves. -/

namespace Sys2Proof

/-- The mask of the two-operand rows of R109 keeps the field `opc2`. -/
theorem and_top_eq_put_field (w : Word) : w &&& 0xF000#16 = put (field w 12 4) 12 := by
  rw [show 0xF000#16 = put 0xF#4 12 from rfl]
  apply BitVec.eq_of_getLsbD_eq
  intro i hi
  rw [BitVec.getLsbD_and, getLsbD_put, getLsbD_put, getLsbD_field]
  by_cases h : i < 12
  · simp [h]
  · have top : i - 12 < 4 := by omega
    have allSet : (0xF#4).getLsbD (i - 12) = true := by
      rw [show 0xF#4 = BitVec.allOnes 4 from rfl, BitVec.getLsbD_allOnes, decide_eq_true top]
    simp [hi, h, top, allSet, show 12 + (i - 12) = i by omega, -BitVec.getLsbD_eq_getElem]

theorem twoWord_and_top (opc2 : BitVec 4) (bw : Width) (src : Operand) (dst : Dest) :
    twoWord opc2 bw src dst &&& 0xF000#16 = put opc2 12 := by
  rw [and_top_eq_put_field, field_eq (Laws.Encoded.top_two opc2 bw src dst)]

end Sys2Proof

namespace Sys2Proof.Machine

open Sys2Proof.Safety

/-- SR is never stepped: `@R2+` is a constant (R141). -/
theorem steps_ne_sr (op : Operand) : steps op ≠ some Reg.sr := by
  intro h
  simp only [steps, Option.ite_none_right_eq_some, Option.some.injEq] at h
  obtain ⟨⟨-, -, hsr, -⟩, e⟩ := h
  exact hsr e

section
variable (bw : Width) (src : Operand) (dst : Dest) (s : State)

@[simp] theorem sr_resolveTwo : (resolveTwo bw src dst s).st.sr = s.sr :=
  reg_resolveTwo Reg.sr_ne_pc (steps_ne_sr src)

/-- The destination's value has no bit above the width. -/
@[simp] theorem dst_resolveTwo_and_mask :
    (resolveTwo bw src dst s).dst bw &&& mask bw = (resolveTwo bw src dst s).dst bw :=
  readLoc_and_mask ..

/-- A write-back after the operands are resolved, without flags: the destination holds the value at the
width, SR stays unless it is the destination, and the run state stays. -/
theorem writeLoc_resolveTwo (hm : s.mem.wf = true) (v : Word) :
    let o := resolveTwo bw src dst s
    let t := writeLoc bw o.loc v o.st
    holds bw o.loc (v &&& mask bw) t ∧ (o.loc ≠ .reg Reg.sr → t.sr = s.sr) ∧ t.run = s.run := by
  intro o t
  have wf : o.st.mem.wf = true := by rwa [mem_resolveTwo]
  have sr (h : o.loc ≠ .reg Reg.sr) : t.sr = s.sr := (reg_writeLoc_ne h).trans (sr_resolveTwo bw src dst s)
  have run : t.run = s.run := (run_writeLoc ..).trans (run_resolveTwo bw src dst s)
  exact ⟨holds_writeLoc wf bw o.loc v, sr, run⟩

end

end Sys2Proof.Machine
end

section
/-! BIC, against spec/42_two_operand.md R209. -/

namespace Sys2Proof.Machine

/-- On a destination's value of the width, the reduction to the width changes nothing. -/
theorem bicResult_eq_of_fits {bw : Width} {d : Word} (hd : d &&& mask bw = d) (v : Word) :
    bicResult bw v d = d &&& ~~~v := by
  rw [bicResult, BitVec.and_assoc, BitVec.and_comm (~~~v), ← BitVec.and_assoc, hd]

theorem exec_bic (bw : Width) (src : Operand) (dst : Dest) (s : State) :
    exec (.bic bw src dst) s = execBic bw src dst s := rfl

/-- Settles O25: BIC writes back `d AND NOT s` without flags, and that value fits the width because `d` does. -/
theorem bicClearsBits : Obligations.BicClearsBits := by
  intro bw src dst s hm o
  have result : bicResult bw o.src (o.dst bw) &&& mask bw = o.dst bw &&& ~~~o.src := by
    rw [← bicResult_eq_of_fits (dst_resolveTwo_and_mask bw src dst s), bicResult, and_mask_and_mask]
  have written := writeLoc_resolveTwo bw src dst s hm (bicResult bw o.src (o.dst bw))
  rw [result] at written
  exact ⟨twoWord_and_top 12#4 bw src dst, _, exec_bic bw src dst s, written⟩

end Sys2Proof.Machine
end

section
/-! The jump's word, against spec/30_encoding.md R103: what it is as a number, and that its row of R109 is read back. -/

namespace Sys2Proof

/-- The shape's three bits and `cond` are one fixed top of six bits (R103). -/
theorem jumpWord_eq (cond : BitVec 3) (off : BitVec 10) :
    jumpWord cond off = put (0b001#3 ++ cond) 10 ||| put off 0 := by
  have top : put 0b001#3 13 ||| put cond 10 = put (0b001#3 ++ cond) 10 := by
    revert cond
    decide
  rw [jumpWord, top]

theorem jumpWord_eq_ofNat (cond : BitVec 3) (off : BitVec 10) :
    jumpWord cond off = BitVec.ofNat 16 (0x2000 + 0x400 * cond.toNat + off.toNat) := by
  have top : (0b001#3 ++ cond).toNat * 2 ^ 10 = 0x2000 + 0x400 * cond.toNat := by
    revert cond
    decide
  rw [jumpWord_eq, put_or_put_eq_ofNat, top]

/-- `cond` selects the row, and the row's field is the displacement. -/
theorem decodeWord_encodeWord_of_jump {i : Instr} (h : i.shape = .jump) : decodeWord (encodeWord i) = i := by
  cases i <;> cases h
  case jne | jeq | jnc | jc | jn | jge | jl | jmp =>
    simp [encodeWord, jumpWord_eq, decodeWord, decodeJump, field_put_or_put, -BitVec.getLsbD_eq_getElem]

end Sys2Proof
end

section
/-! The common path of the jumps (spec/43_jump.md R240): the target, and the condition that takes the jump. -/

namespace Sys2Proof.Machine

/-- The sum in words is the signed sum modulo 2^16. -/
theorem add_jumpOffset (a : Word) (off : BitVec 10) :
    a + jumpOffset off = BitVec.ofInt 16 (a.toNat + 2 * off.toInt) := by
  have double : jumpOffset off = BitVec.ofInt 16 (2 * off.toInt) := by
    rw [jumpOffset, BitVec.signExtend, BitVec.shiftLeft_eq_mul_twoPow, BitVec.mul_comm, BitVec.ofInt_mul]
    rfl
  rw [double, BitVec.ofInt_add, BitVec.ofInt_natCast, BitVec.ofNat_toNat, BitVec.setWidth_eq]

theorem jumpIf_eq_ite {taken : Bool} {p : Prop} [Decidable p] (h : taken = true ↔ p) (off : BitVec 10) (s : State) :
    jumpIf taken off s = if p then s.setPc (BitVec.ofInt 16 (s.pc.toNat + 2 * off.toInt)) else s := by
  rw [jumpIf, add_jumpOffset]
  simp only [h]

/-- A jump's word decodes to it, and it answers the state with PC at the target when its condition holds. -/
theorem jump_completes {i : Instr} {w : Word} {off : BitVec 10} {s : State} {taken : Bool} {p : Prop} [Decidable p]
    (hi : i.shape = .jump) (hw : encodeWord i = w) (hx : exec i s = .next (jumpIf taken off s)) (hp : taken = true ↔ p) :
    decodeWord w = i ∧
    exec i s = .next (if p then s.setPc (BitVec.ofInt 16 (s.pc.toNat + 2 * off.toInt)) else s) := by
  subst hw
  exact ⟨decodeWord_encodeWord_of_jump hi, by rw [hx, jumpIf_eq_ite hp]⟩

end Sys2Proof.Machine
end

section
/-! The eight jumps, against spec/43_jump.md R241 to R248. -/

namespace Sys2Proof.Machine

/-- Settles O36: each jump's word is `jumpWord` of its `cond`, and its meaning is `jumpIf` of its condition. -/
theorem jumpsTestTheirCondition : Obligations.JumpsTestTheirCondition := by
  intro off s target word
  have wordEq (cond : BitVec 3) : jumpWord cond off = word cond.toNat := jumpWord_eq_ofNat cond off
  have clear (b : Bool) : (!b) = true ↔ b = false := iff_of_eq (Bool.not_eq_true' b)
  have equal (a b : Bool) : (!(a ^^ b)) = true ↔ a = b := by simp
  have jne := jump_completes (i := .jne off) (s := s) rfl (wordEq 0) rfl (clear _)
  have jeq := jump_completes (i := .jeq off) (s := s) rfl (wordEq 1) rfl Iff.rfl
  have jnc := jump_completes (i := .jnc off) (s := s) rfl (wordEq 2) rfl (clear _)
  have jc := jump_completes (i := .jc off) (s := s) rfl (wordEq 3) rfl Iff.rfl
  have jn := jump_completes (i := .jn off) (s := s) rfl (wordEq 4) rfl Iff.rfl
  have jge := jump_completes (i := .jge off) (s := s) rfl (wordEq 5) rfl (equal _ _)
  have jl := jump_completes (i := .jl off) (s := s) rfl (wordEq 6) rfl bne_iff_ne
  have jmp := jump_completes (i := .jmp off) (s := s) rfl (wordEq 7) rfl (iff_true_intro rfl)
  exact ⟨jne, jeq, jnc, jc, jn, jge, jl, jmp⟩

end Sys2Proof.Machine
end

section
/-! What a step of a running core leaves of the run state, against spec/60_exceptions.md R262 and R275: an
instruction that raises nothing keeps it, and a fatal one halts with its kind. -/

namespace Sys2Proof.Machine

open Sys2Proof.Safety

@[simp] theorem run_jumpIf (taken : Bool) (off : BitVec 10) (s : State) : (jumpIf taken off s).run = s.run := by
  cases taken <;> rfl

@[simp] theorem run_resolveStackOperand (bw : Width) (op : Operand) (s : State) :
    (resolveStackOperand bw op s).st.run = s.run := by
  rw [resolveStackOperand, run_resolveSrc, State.run_setReg]

theorem exec_of_not_fatal {i : Instr} (h : fatalKind i = none) (s : State) :
    ∃ t, exec i s = .next t ∧ t.run = s.run := by
  cases i <;> cases h
  case jne | jeq | jnc | jc | jn | jge | jl | jmp => exact ⟨_, rfl, run_jumpIf _ _ s⟩
  case rrc | rra | sxt => exact ⟨_, rfl, by rw [run_commit, run_resolveSrc]⟩
  case swpb => exact ⟨_, rfl, by rw [run_writeLoc, run_resolveSrc]⟩
  case push => exact ⟨_, rfl, by rw [State.run_store, run_resolveStackOperand]⟩
  case call => exact ⟨_, rfl, by rw [State.run_setReg, State.run_store, run_resolveStackOperand]⟩
  case add | sub | xor | and => exact ⟨_, rfl, by rw [run_commit, run_resolveTwo]⟩
  case mov | bic | bis => exact ⟨_, rfl, by rw [run_writeLoc, run_resolveTwo]⟩
  case cmp => exact ⟨_, rfl, by rw [run_writeFlags, run_resolveTwo]⟩

theorem step_of_running {s : State} (h : s.run = .running) :
    step s = exec (decodeWord (s.mem.readWord s.pc)) s.advance := by
  rw [step, h, State.fetchWord]

/-- A running core's step halts with a kind exactly when the word at PC raises it. -/
theorem step_halts_iff {s t : State} {k : FatalKind} (hs : s.run = .running) (ht : step s = .next t) :
    (∃ a x, t.run = .halted ⟨k, a, x⟩) ↔ fatalKind (decodeWord (s.mem.readWord s.pc)) = some k := by
  rw [step_of_running hs] at ht
  cases hk : fatalKind (decodeWord (s.mem.readWord s.pc)) with
  | none =>
    obtain ⟨u, hu, run⟩ := exec_of_not_fatal hk s.advance
    cases ht.symm.trans hu
    simp [run, hs]
  | some kind =>
    cases ht.symm.trans (exec_of_fatal hk s.advance)
    simp

end Sys2Proof.Machine
end

section
/-! The fatal words as ranges, against spec/60_exceptions.md R261 and R263: one lemma per table of the decoder. -/

namespace Sys2Proof.Machine

open Sys2Proof.Safety

/-- The words listed for each kind: R261's three ranges; R263's RETI, then ADDC with SUBC, then DADD with BIT. -/
def Listed : FatalKind → Nat → Prop
  | .unknownOpcode, w => w ≤ 0x0FFF ∨ (0x1380 ≤ w ∧ w ≤ 0x13FF) ∨ (0x1400 ≤ w ∧ w ≤ 0x1FFF)
  | .notImplemented, w => (0x1300 ≤ w ∧ w ≤ 0x137F) ∨ (0x6000 ≤ w ∧ w ≤ 0x7FFF) ∨ (0xA000 ≤ w ∧ w ≤ 0xBFFF)

theorem getLsbD_eq_true_iff (w : Word) (i : Nat) : w.getLsbD i = true ↔ w.toNat / 2 ^ i % 2 = 1 := by
  rw [BitVec.getLsbD, Nat.testBit_eq_decide_div_mod_eq, decide_eq_true_iff]

theorem getLsbD_eq_false_iff (w : Word) (i : Nat) : w.getLsbD i = false ↔ w.toNat / 2 ^ i % 2 = 0 := by
  rw [← Bool.not_eq_true, getLsbD_eq_true_iff, Nat.mod_two_not_eq_one]

variable {w : Word} (k : FatalKind)

theorem fatalKind_decodeJump (w : Word) : fatalKind (decodeJump w) = none := by
  rw [decodeJump]
  split <;> rfl

/-- `opc1` = 6 and 7 are the last two of the shape's eight blocks of 128 words (R177, R178). -/
theorem fatalKind_decodeSingle_iff (h : 0x1000 ≤ w.toNat ∧ w.toNat ≤ 0x13FF) :
    fatalKind (decodeSingle w) = some k ↔ Listed k w.toNat := by
  rw [decodeSingle]
  split <;> simp only [getLsbD_eq_true_iff, getLsbD_eq_false_iff] at *
  all_goals cases k <;> simp only [fatalKind, Listed, Option.some.injEq, reduceCtorEq, false_iff, true_iff] <;> omega

/-- Above the single-operand shape, the rest of the block is unknown (R214). -/
theorem fatalKind_decodeTop1_iff (h : 0x1000 ≤ w.toNat ∧ w.toNat ≤ 0x1FFF) :
    fatalKind (decodeTop1 w) = some k ↔ Listed k w.toNat := by
  rw [decodeTop1]
  split <;> simp only [getLsbD_eq_true_iff, getLsbD_eq_false_iff] at *
  · exact fatalKind_decodeSingle_iff k (by omega)
  all_goals cases k <;> simp only [fatalKind, Listed, Option.some.injEq, reduceCtorEq, false_iff, true_iff] <;> omega

/-- Each other row is a block of 4096 words of one kind or of none (R109); the jumps are two such blocks. -/
theorem fatalKind_decodeWord_iff : fatalKind (decodeWord w) = some k ↔ Listed k w.toNat := by
  rw [decodeWord]
  split <;> simp only [getLsbD_eq_true_iff, getLsbD_eq_false_iff] at *
  case h_2 => exact fatalKind_decodeTop1_iff k (by omega)
  case h_3 =>
    rw [fatalKind_decodeJump]
    cases k <;> simp only [Listed, reduceCtorEq, false_iff] <;> omega
  all_goals cases k <;> simp only [fatalKind, Listed, Option.some.injEq, reduceCtorEq, false_iff, true_iff] <;> omega

end Sys2Proof.Machine
end

section
/-! The words that halt, against spec/60_exceptions.md R261 and R263. -/

namespace Sys2Proof.Machine

/-- Settles O41: a step halts with the kind its word raises, and the words that raise a kind are its ranges. -/
theorem exactlyTheListedWordsHalt : Obligations.ExactlyTheListedWordsHalt := by
  intro s t hs ht w
  exact ⟨(step_halts_iff hs ht).trans (fatalKind_decodeWord_iff .unknownOpcode),
    (step_halts_iff hs ht).trans (fatalKind_decodeWord_iff .notImplemented)⟩

end Sys2Proof.Machine
end

section
/-! The fields of an instruction word, against spec/30_encoding.md R102 to R104: what the encoder puts into a field
is what the decoder takes out of it, and a word is its fields put back side by side. -/

namespace Sys2Proof

/-! ## Fields of a word written field by field -/

theorem field_or (a b : Word) (lo len : Nat) : field (a ||| b) lo len = field a lo len ||| field b lo len := by
  apply BitVec.eq_of_getLsbD_eq
  intro i hi
  simp only [getLsbD_field, BitVec.getLsbD_or, Bool.and_or_distrib_left]

theorem field_put_same {m lo : Nat} (v : BitVec m) (h : lo + m ≤ 16) : field (put v lo) lo m = v := by
  apply field_eq
  intro i hi
  rw [getLsbD_put]
  simp [show lo + i < 16 by omega]

theorem field_put_below {m lo p len : Nat} (v : BitVec m) (h : p + m ≤ lo) : field (put v p) lo len = 0#len := by
  apply field_eq
  intro i hi
  rw [getLsbD_put, BitVec.getLsbD_of_ge v (lo + i - p) (by omega)]
  simp

theorem field_put_above {m lo p len : Nat} (v : BitVec m) (h : lo + len ≤ p) : field (put v p) lo len = 0#len := by
  apply field_eq
  intro i hi
  rw [getLsbD_put]
  simp [show lo + i < p by omega]

/-- Two neighbouring fields of a word are one field of it. -/
theorem put_field_or_put_field (w : Word) (lo m n : Nat) :
    put (field w (lo + n) m) (lo + n) ||| put (field w lo n) lo = put (field w lo (n + m)) lo := by
  apply BitVec.eq_of_getLsbD_eq
  intro i hi
  simp only [BitVec.getLsbD_or, getLsbD_put, getLsbD_field]
  by_cases h : i < lo
  · simp [h, show i < lo + n by omega]
  · by_cases hn : i < lo + n
    · simp [hi, h, hn, show i - lo < n by omega, show i - lo < n + m by omega]
    · by_cases hm : i < lo + n + m
      · simp [hi, h, hn, show i - (lo + n) < m by omega, show ¬ i - lo < n by omega, show i - lo < n + m by omega,
          show lo + n + (i - (lo + n)) = lo + (i - lo) by omega]
      · simp [hn, show ¬ i - (lo + n) < m by omega, show ¬ i - lo < n by omega, show ¬ i - lo < n + m by omega]

theorem put_field_all (w : Word) : put (field w 0 16) 0 = w := by
  apply BitVec.eq_of_getLsbD_eq
  intro i hi
  simp [hi, -BitVec.getLsbD_eq_getElem]

/-- A field is its upper part and its lower part. -/
theorem field_append (w : Word) (lo m n : Nat) : field w lo (m + n) = field w (lo + n) m ++ field w lo n := by
  apply field_eq
  intro i hi
  rw [BitVec.getLsbD_append, getLsbD_field, getLsbD_field]
  by_cases h : i < n
  · simp [h]
  · simp [h, show i - n < m by omega, show lo + n + (i - n) = lo + i by omega]

theorem field_one_eq {w : Word} {lo : Nat} {v : BitVec 1} (h0 : w.getLsbD lo = v.getLsbD 0) : field w lo 1 = v := by
  apply field_eq
  intro i hi
  obtain rfl : i = 0 := by omega
  exact h0

theorem field_two_eq {w : Word} {lo : Nat} {v : BitVec 2} (h1 : w.getLsbD (lo + 1) = v.getLsbD 1)
    (h0 : w.getLsbD lo = v.getLsbD 0) : field w lo 2 = v := by
  apply field_eq
  intro i hi
  rcases (by omega : i = 0 ∨ i = 1) with rfl | rfl
  · exact h0
  · exact h1

theorem field_three_eq {w : Word} {lo : Nat} {v : BitVec 3} (h2 : w.getLsbD (lo + 2) = v.getLsbD 2)
    (h1 : w.getLsbD (lo + 1) = v.getLsbD 1) (h0 : w.getLsbD lo = v.getLsbD 0) : field w lo 3 = v := by
  apply field_eq
  intro i hi
  rcases (by omega : i = 0 ∨ i = 1 ∨ i = 2) with rfl | rfl | rfl
  · exact h0
  · exact h1
  · exact h2

theorem field_four_eq {w : Word} {lo : Nat} {v : BitVec 4} (h3 : w.getLsbD (lo + 3) = v.getLsbD 3)
    (h2 : w.getLsbD (lo + 2) = v.getLsbD 2) (h1 : w.getLsbD (lo + 1) = v.getLsbD 1) (h0 : w.getLsbD lo = v.getLsbD 0) :
    field w lo 4 = v := by
  apply field_eq
  intro i hi
  rcases (by omega : i = 0 ∨ i = 1 ∨ i = 2 ∨ i = 3) with rfl | rfl | rfl | rfl
  · exact h0
  · exact h1
  · exact h2
  · exact h3

/-! ## The decoder's fields as bits -/

theorem bits_fieldWidth (w : Word) : (fieldWidth w).bits = field w 6 1 := by
  symm
  apply field_one_eq
  rw [fieldWidth]
  cases w.getLsbD 6 <;> rfl

theorem bits_fieldAs (w : Word) : (fieldAs w).bits = field w 4 2 := by
  symm
  apply field_two_eq <;> rw [fieldAs] <;> cases w.getLsbD 5 <;> cases w.getLsbD 4 <;> rfl

theorem bits_fieldAd (w : Word) : (fieldAd w).bits = field w 7 1 := by
  symm
  apply field_one_eq
  rw [fieldAd]
  cases w.getLsbD 7 <;> rfl

theorem regBits_fieldReg (w : Word) (lo : Nat) : regBits (fieldReg w lo) = field w lo 4 := rfl

theorem fieldWidth_eq {w : Word} {bw : Width} (h : field w 6 1 = bw.bits) : fieldWidth w = bw := by
  rw [← bits_fieldWidth] at h
  revert h
  cases fieldWidth w <;> cases bw <;> decide

theorem fieldAs_eq {w : Word} {m : SrcMode} (h : field w 4 2 = m.bits) : fieldAs w = m := by
  rwa [← bits_fieldAs, srcMode_bits_inj] at h

theorem fieldAd_eq {w : Word} {m : DstMode} (h : field w 7 1 = m.bits) : fieldAd w = m := by
  rw [← bits_fieldAd] at h
  revert h
  cases fieldAd w <;> cases m <;> decide

theorem fieldReg_eq_of_field {w : Word} {lo : Nat} {r : Reg} (h : field w lo 4 = regBits r) : fieldReg w lo = r :=
  congrArg BitVec.toFin h

end Sys2Proof
end

section
/-! The two operand formats, spec/30_encoding.md R102 and R104, read back field by field. -/

namespace Sys2Proof

section
variable (opc1 : BitVec 3) (bw : Width) (op : Operand)

theorem fieldWidth_singleWord : fieldWidth (singleWord opc1 bw op) = bw := by
  apply fieldWidth_eq
  simp [singleWord, field_or, field_put_same, field_put_above, field_put_below]

theorem fieldOperand_singleWord : fieldOperand (singleWord opc1 bw op) = op := by
  have reg : fieldReg (singleWord opc1 bw op) 0 = op.reg := fieldReg_eq_of_field <| by
    simp [singleWord, field_or, field_put_same, field_put_above]
  have mode : fieldAs (singleWord opc1 bw op) = op.mode := fieldAs_eq <| by
    simp [singleWord, field_or, field_put_same, field_put_above, field_put_below]
  rw [fieldOperand, reg, mode]

theorem field_shape_singleWord : field (singleWord opc1 bw op) 10 6 = 0b000100#6 := by
  simp [singleWord, field_or, field_put_same, field_put_below]

theorem field_opc1_singleWord : field (singleWord opc1 bw op) 7 3 = opc1 := by
  simp [singleWord, field_or, field_put_same, field_put_above, field_put_below]

end

section
variable (opc2 : BitVec 4) (bw : Width) (src : Operand) (dst : Dest)

theorem fieldWidth_twoWord : fieldWidth (twoWord opc2 bw src dst) = bw := by
  apply fieldWidth_eq
  simp [twoWord, field_or, field_put_same, field_put_above, field_put_below]

theorem fieldSource_twoWord : fieldSource (twoWord opc2 bw src dst) = src := by
  have reg : fieldReg (twoWord opc2 bw src dst) 8 = src.reg := fieldReg_eq_of_field <| by
    simp [twoWord, field_or, field_put_same, field_put_above, field_put_below]
  have mode : fieldAs (twoWord opc2 bw src dst) = src.mode := fieldAs_eq <| by
    simp [twoWord, field_or, field_put_same, field_put_above, field_put_below]
  rw [fieldSource, reg, mode]

theorem fieldDest_twoWord : fieldDest (twoWord opc2 bw src dst) = dst := by
  have reg : fieldReg (twoWord opc2 bw src dst) 0 = dst.reg := fieldReg_eq_of_field <| by
    simp [twoWord, field_or, field_put_same, field_put_above]
  have mode : fieldAd (twoWord opc2 bw src dst) = dst.mode := fieldAd_eq <| by
    simp [twoWord, field_or, field_put_same, field_put_above, field_put_below]
  rw [fieldDest, reg, mode]

theorem field_opc2_twoWord : field (twoWord opc2 bw src dst) 12 4 = opc2 :=
  field_eq (Laws.Encoded.top_two opc2 bw src dst)

end

end Sys2Proof
end

section
/-! Encoding and decoding are inverse to each other (spec/30_encoding.md R109, R112, R117). -/

namespace Sys2Proof

/-! ## Decoding an encoded instruction -/

theorem getLsbD_of_field {w : Word} {lo len : Nat} {v : BitVec len} (h : field w lo len = v) {i : Nat} (hi : i < len) :
    w.getLsbD (lo + i) = v.getLsbD i := by
  rw [← h, getLsbD_field, decide_eq_true hi, Bool.true_and]

/-- The classifier's pattern sends a word to the single-operand table (R100). -/
theorem decodeWord_of_singleShape {w : Word} (h : field w 10 6 = 0b000100#6) : decodeWord w = decodeSingle w := by
  have bit {i : Nat} (hi : i < 6) := getLsbD_of_field h hi
  simp only [decodeWord, decodeTop1, bit (i := 5) (by decide), bit (i := 4) (by decide), bit (i := 3) (by decide),
    bit (i := 2) (by decide), bit (i := 1) (by decide), bit (i := 0) (by decide)]
  simp

theorem opc1_singleWord (opc1 : BitVec 3) (bw : Width) (op : Operand) :
    let w := singleWord opc1 bw op
    w.getLsbD 9 = opc1.getLsbD 2 ∧ w.getLsbD 8 = opc1.getLsbD 1 ∧ w.getLsbD 7 = opc1.getLsbD 0 := by
  have bit {i : Nat} (hi : i < 3) := getLsbD_of_field (field_opc1_singleWord opc1 bw op) hi
  exact ⟨bit (i := 2) (by decide), bit (i := 1) (by decide), bit (i := 0) (by decide)⟩

theorem opc2_twoWord (opc2 : BitVec 4) (bw : Width) (src : Operand) (dst : Dest) :
    let w := twoWord opc2 bw src dst
    w.getLsbD 15 = opc2.getLsbD 3 ∧ w.getLsbD 14 = opc2.getLsbD 2 ∧ w.getLsbD 13 = opc2.getLsbD 1 ∧
    w.getLsbD 12 = opc2.getLsbD 0 := by
  have bit {i : Nat} (hi : i < 4) := getLsbD_of_field (field_opc2_twoWord opc2 bw src dst) hi
  exact ⟨bit (i := 3) (by decide), bit (i := 2) (by decide), bit (i := 1) (by decide), bit (i := 0) (by decide)⟩

/-- The top of an encoded word selects its row, and the row's fields are the instruction's. -/
@[simp] theorem decodeWord_encodeWord (i : Instr) : decodeWord (encodeWord i) = i := by
  cases i
  case rrc | swpb | rra | sxt | push | call =>
    rw [encodeWord, decodeWord_of_singleShape (field_shape_singleWord ..)]
    simp [decodeSingle, opc1_singleWord, fieldWidth_singleWord, fieldOperand_singleWord, -BitVec.getLsbD_eq_getElem]
  case mov | add | sub | cmp | bic | bis | xor | and =>
    simp [encodeWord, decodeWord, opc2_twoWord, fieldWidth_twoWord, fieldSource_twoWord, fieldDest_twoWord,
      -BitVec.getLsbD_eq_getElem]
  case jne | jeq | jnc | jc | jn | jge | jl | jmp => exact decodeWord_encodeWord_of_jump rfl
  case reti | unknownSingle7 | addc | subc | dadd | bit | unknownTwo0 | unknownTwo1Low | unknownTwo1High =>
    exact Machine.decodeWord_encodeWord_of_fatal rfl

/-! ## Encoding a decoded word -/

section
variable {w : Word}

theorem singleWord_of_fields {opc1 : BitVec 3} (hs : field w 10 6 = 0b000100#6) (ho : field w 7 3 = opc1) :
    singleWord opc1 (fieldWidth w) (fieldOperand w) = w := by
  subst ho
  rw [singleWord, ← hs, fieldOperand, regBits_fieldReg, bits_fieldAs, bits_fieldWidth, put_field_or_put_field w 7 6 3,
    put_field_or_put_field w 6 9 1, put_field_or_put_field w 4 10 2, put_field_or_put_field w 0 12 4]
  exact put_field_all w

theorem singleFatalWord_of_fields {opc1 : BitVec 3} (hs : field w 10 6 = 0b000100#6) (ho : field w 7 3 = opc1) :
    singleFatalWord opc1 (field w 0 7) = w := by
  subst ho
  rw [singleFatalWord, ← hs, put_field_or_put_field w 7 6 3, put_field_or_put_field w 0 9 7]
  exact put_field_all w

theorem jumpWord_of_fields {cond : BitVec 3} (hs : field w 13 3 = 0b001#3) (hc : field w 10 3 = cond) :
    jumpWord cond (field w 0 10) = w := by
  subst hc
  rw [jumpWord, ← hs, put_field_or_put_field w 10 3 3, put_field_or_put_field w 0 6 10]
  exact put_field_all w

theorem twoWord_of_field {opc2 : BitVec 4} (h : field w 12 4 = opc2) :
    twoWord opc2 (fieldWidth w) (fieldSource w) (fieldDest w) = w := by
  subst h
  rw [twoWord, fieldSource, fieldDest, regBits_fieldReg, regBits_fieldReg, bits_fieldAs, bits_fieldAd, bits_fieldWidth,
    put_field_or_put_field w 8 4 4, put_field_or_put_field w 7 8 1, put_field_or_put_field w 6 9 1,
    put_field_or_put_field w 4 10 2, put_field_or_put_field w 0 12 4]
  exact put_field_all w

theorem twoFatalWord_of_field {opc2 : BitVec 4} (h : field w 12 4 = opc2) : twoFatalWord opc2 (field w 0 12) = w := by
  subst h
  rw [twoFatalWord, put_field_or_put_field w 0 4 12]
  exact put_field_all w

theorem encodeWord_decodeSingle (hs : field w 10 6 = 0b000100#6) : encodeWord (decodeSingle w) = w := by
  rw [decodeSingle]
  split <;> rename_i h9 h8 h7
  case h_7 | h_8 => exact singleFatalWord_of_fields hs (field_three_eq h9 h8 h7)
  all_goals exact singleWord_of_fields hs (field_three_eq h9 h8 h7)

theorem encodeWord_decodeJump (hs : field w 13 3 = 0b001#3) : encodeWord (decodeJump w) = w := by
  rw [decodeJump]
  split <;> rename_i h12 h11 h10 <;> exact jumpWord_of_fields hs (field_three_eq h12 h11 h10)

theorem encodeWord_decodeTop1 (h : field w 12 4 = 1#4) : encodeWord (decodeTop1 w) = w := by
  rw [decodeTop1]
  split
  case h_1 h11 h10 =>
    have low : field w 10 2 = 0#2 := field_two_eq h11 h10
    have shape : field w 10 6 = 0b000100#6 := by rw [field_append w 10 4 2, h, low]; rfl
    exact encodeWord_decodeSingle shape
  case h_2 h11 h10 =>
    have low : field w 10 2 = 1#2 := field_two_eq h11 h10
    have top : field w 10 6 = 0b000101#6 := by rw [field_append w 10 4 2, h, low]; rfl
    rw [encodeWord, ← top, put_field_or_put_field w 0 6 10]
    exact put_field_all w
  case h_3 h11 =>
    have low : field w 11 1 = 1#1 := field_one_eq h11
    have top : field w 11 5 = 0b00011#5 := by rw [field_append w 11 4 1, h, low]; rfl
    rw [encodeWord, ← top, put_field_or_put_field w 0 5 11]
    exact put_field_all w

theorem encodeWord_decodeWord (w : Word) : encodeWord (decodeWord w) = w := by
  rw [decodeWord]
  split
  case h_2 h15 h14 h13 h12 => exact encodeWord_decodeTop1 (field_four_eq h15 h14 h13 h12)
  case h_3 h15 h14 h13 => exact encodeWord_decodeJump (field_three_eq h15 h14 h13)
  case h_1 | h_6 | h_7 | h_10 | h_11 => exact twoFatalWord_of_field (field_four_eq ‹_› ‹_› ‹_› ‹_›)
  all_goals exact twoWord_of_field (field_four_eq ‹_› ‹_› ‹_› ‹_›)

end
end Sys2Proof
end

section
/-! Encoding and decoding, against spec/30_encoding.md R109, R112 and R117. -/

namespace Sys2Proof

/-- Settles O49: the row and the fields of the instruction word are read back. -/
theorem decodeOfEncodeIsTheInstruction : Obligations.DecodeOfEncodeIsTheInstruction :=
  decodeWord_encodeWord

/-- Settles O50: the fixed top that selects the row and the row's fields are all sixteen bits of the word. -/
theorem encodeOfDecodeIsTheWord : Obligations.EncodeOfDecodeIsTheWord :=
  encodeWord_decodeWord

end Sys2Proof
end

section
/-! An instruction with its extension words in memory, against spec/30_encoding.md R101, R107 and R113. -/

namespace Sys2Proof

/-- R113's `SrcExt` is R101's condition. -/
theorem srcExt_eq (op : Operand) : srcExt op = op.takesWord.toNat := by
  obtain ⟨r, m⟩ := op
  cases m <;> simp [srcExt, Operand.takesWord, Bool.toNat]

/-- The field `Ad` is the number of the destination's extension words (R101, R113). -/
theorem field_Ad_twoWord (opc2 : BitVec 4) (bw : Width) (src : Operand) (dst : Dest) :
    (field (twoWord opc2 bw src dst) 7 1).toNat = dst.takesWord.toNat := by
  have mode : fieldAd (twoWord opc2 bw src dst) = dst.mode := congrArg Dest.mode (fieldDest_twoWord opc2 bw src dst)
  rw [← bits_fieldAd, mode, Dest.takesWord]
  cases dst.mode <;> rfl

/-- The count read from the word's fields is the instruction's own (R113). -/
theorem extCount_encodeWord (i : Instr) : extCount (encodeWord i) = i.extWords := by
  rw [extCount, decodeWord_encodeWord]
  cases i
  case rrc | swpb | rra | sxt | push | call =>
    simp only [encodeWord, fieldOperand_singleWord, srcExt_eq, Instr.extWords]
  case mov | add | sub | cmp | bic | bis | xor | and =>
    simp only [encodeWord, fieldSource_twoWord, field_Ad_twoWord, srcExt_eq, Instr.extWords]
  all_goals rfl

theorem takeWords_bytesOfWords (ws : List Word) (rest : List Byte) :
    takeWords ws.length (bytesOfWords ws ++ rest) = some (ws, rest) := by
  induction ws with
  | nil => rfl
  | cons w ws ih => simp [bytesOfWords, takeWords, ih, wordOfBytes_extract]

/-- Settles O51: the first two bytes are the instruction word, which says how many words follow. -/
theorem decodeOfLaidOutInstruction : Obligations.DecodeOfLaidOutInstruction := by
  intro a rest wf
  have count : extCount (encodeWord a.instr) = a.ext.length := by
    rw [extCount_encodeWord, ← beq_iff_eq.mp wf]
  simp [encode, bytesOfWords, decode, wordOfBytes_extract, count, takeWords_bytesOfWords]

end Sys2Proof
end

section
/-! The classifier, against spec/30_encoding.md R100. -/

namespace Sys2Proof

theorem classify_encodeWord (i : Instr) : classify (encodeWord i) = i.shape := by
  cases i
  case rrc | swpb | rra | sxt | push | call => exact Laws.Encoded.top_single ..
  case reti | unknownSingle7 => exact Laws.Encoded.top_singleFatal ..
  case jne | jeq | jnc | jc | jn | jge | jl | jmp => exact Laws.Encoded.top_jump ..
  case mov | add | sub | cmp | bic | bis | xor | and =>
    exact Laws.Encoded.classify_top (Laws.Encoded.top_two _ _ _ _) (by decide)
  case addc | subc | dadd | bit | unknownTwo0 =>
    exact Laws.Encoded.classify_top (Laws.Encoded.top_twoFatal _ _) (by decide)
  case unknownTwo1Low rest => exact (Laws.Encoded.unknownTwo1Low rest).1
  case unknownTwo1High rest => exact (Laws.Encoded.unknownTwo1High rest).1

theorem field_eq_iff (w : Word) (lo len : Nat) (v : BitVec len) :
    field w lo len = v ↔ w.toNat / 2 ^ lo % 2 ^ len = v.toNat := by
  rw [← BitVec.toNat_inj, field, BitVec.extractLsb'_toNat, Nat.shiftRight_eq_div_pow]

/-- Settles O52: each of the two patterns is a block of words, and the decoder's shape is the classifier's because
a word is the encoding of what it decodes to. -/
theorem classifierGivesTheShape : Obligations.ClassifierGivesTheShape := by
  intro w
  have single : field w 10 6 = 0b000100#6 ↔ 0x1000 ≤ w.toNat ∧ w.toNat ≤ 0x13FF := by
    rw [field_eq_iff]
    simp only [BitVec.toNat_ofNat]
    omega
  have jump : field w 13 3 = 0b001#3 ↔ 0x2000 ≤ w.toNat ∧ w.toNat ≤ 0x3FFF := by
    rw [field_eq_iff]
    simp only [BitVec.toNat_ofNat]
    omega
  have shape : (decodeWord w).shape = classify w := by rw [← classify_encodeWord, encodeWord_decodeWord]
  refine ⟨?_, ?_, ?_, shape⟩
  all_goals
    rw [classify]
    by_cases hs : field w 10 6 = 0b000100#6
    · have range := single.mp hs
      simp only [hs, if_true, reduceCtorEq, true_iff, false_iff]
      omega
    · by_cases hj : field w 13 3 = 0b001#3
      · have range := jump.mp hj
        simp only [hs, hj, if_true, if_false, reduceCtorEq, true_iff, false_iff]
        omega
      · simp only [hs, hj, if_false, reduceCtorEq, true_iff, false_iff]
        rw [single] at hs
        rw [jump] at hj
        omega

end Sys2Proof
end

section
/-! The opcode map, against spec/30_encoding.md R109 and R117: the rows exclude each other, and every instruction
has one. -/

namespace Sys2Proof

/-- A mask of the top bits keeps the top field (R109). -/
theorem and_put_allOnes {lo n : Nat} (h : lo + n = 16) (w : Word) :
    w &&& put (BitVec.allOnes n) lo = put (field w lo n) lo := by
  apply BitVec.eq_of_getLsbD_eq
  intro i hi
  rw [BitVec.getLsbD_and, getLsbD_put, getLsbD_put, getLsbD_field, BitVec.getLsbD_allOnes]
  by_cases low : i < lo
  · simp [low]
  · simp [hi, low, show i - lo < n by omega, show lo + (i - lo) = i by omega, -BitVec.getLsbD_eq_getElem]

theorem singleWord_and_top (opc1 : BitVec 3) (bw : Width) (op : Operand) :
    singleWord opc1 bw op &&& 0xFF80#16 = put (0b000100#6 ++ opc1) 7 := by
  rw [show 0xFF80#16 = put (BitVec.allOnes 9) 7 from rfl, and_put_allOnes rfl, field_append _ 7 6 3,
    field_shape_singleWord, field_opc1_singleWord]

/-- The mask of a row whose low bits are free keeps the row's fixed top. -/
theorem put_or_put_and_top {m n : Nat} (top : BitVec m) (rest : BitVec n) (h : n + m = 16) :
    (put top n ||| put rest 0) &&& put (BitVec.allOnes m) n = put top n := by
  rw [and_put_allOnes h, field_or, field_put_same top (Nat.le_of_eq h),
    field_put_below rest (Nat.le_of_eq (Nat.zero_add n)), BitVec.or_zero]

theorem singleFatalWord_and_top (opc1 : BitVec 3) (rest : BitVec 7) :
    singleFatalWord opc1 rest &&& 0xFF80#16 = put (0b000100#6 ++ opc1) 7 :=
  singleFatalWord_eq opc1 rest ▸ put_or_put_and_top (0b000100#6 ++ opc1) rest rfl

theorem jumpWord_and_top (cond : BitVec 3) (off : BitVec 10) :
    jumpWord cond off &&& 0xFC00#16 = put (0b001#3 ++ cond) 10 :=
  jumpWord_eq cond off ▸ put_or_put_and_top (0b001#3 ++ cond) off rfl

theorem twoFatalWord_and_top (opc2 : BitVec 4) (rest : BitVec 12) :
    twoFatalWord opc2 rest &&& 0xF000#16 = put opc2 12 :=
  put_or_put_and_top opc2 rest rfl

/-- Two rows of the map exclude each other: their patterns differ in a bit that both masks keep. -/
theorem opcodeRows_clash : ∀ r ∈ opcodeRows, ∀ r' ∈ opcodeRows, r ≠ r' →
    (r.pat ^^^ r'.pat) &&& (r.mask &&& r'.mask) ≠ 0#16 := by
  decide

theorem opcodeRows_nodup : opcodeRows.Nodup := by
  decide

/-- What two masks keep of one word agrees where both keep it. -/
theorem and_xor_and_and (w m m' : Word) : ((w &&& m) ^^^ (w &&& m')) &&& (m &&& m') = 0#16 := by
  apply BitVec.eq_of_getLsbD_eq
  intro i hi
  simp only [BitVec.getLsbD_and, BitVec.getLsbD_xor]
  cases w.getLsbD i <;> cases m.getLsbD i <;> cases m'.getLsbD i <;> simp

theorem eq_of_rows_match {w : Word} {r r' : OpcodeRow} (hr : r ∈ opcodeRows) (hr' : r' ∈ opcodeRows)
    (h : w &&& r.mask = r.pat) (h' : w &&& r'.mask = r'.pat) : r = r' := by
  apply Decidable.byContradiction
  intro ne
  apply opcodeRows_clash r hr r' hr' ne
  rw [← h, ← h', and_xor_and_and]

theorem exists_row_of_mem {w pat mask : Word} {name : String} (h : w &&& mask = pat)
    (hr : ⟨name, pat, mask⟩ ∈ opcodeRows) : ∃ r ∈ opcodeRows, w &&& r.mask = r.pat ∧ r.mnemonic = name :=
  ⟨_, hr, h, rfl⟩

/-- An instruction's word matches the row with its mnemonic. -/
theorem exists_row (i : Instr) : ∃ r ∈ opcodeRows, encodeWord i &&& r.mask = r.pat ∧ r.mnemonic = mnemonic i := by
  cases i
  case rrc | swpb | rra | sxt | push | call =>
    exact exists_row_of_mem (singleWord_and_top ..) (by rw [mnemonic]; decide)
  case reti | unknownSingle7 => exact exists_row_of_mem (singleFatalWord_and_top ..) (by rw [mnemonic]; decide)
  case jne | jeq | jnc | jc | jn | jge | jl | jmp =>
    exact exists_row_of_mem (jumpWord_and_top ..) (by rw [mnemonic]; decide)
  case mov | add | sub | cmp | bic | bis | xor | and =>
    exact exists_row_of_mem (twoWord_and_top ..) (by rw [mnemonic]; decide)
  case addc | subc | dadd | bit | unknownTwo0 =>
    exact exists_row_of_mem (twoFatalWord_and_top ..) (by rw [mnemonic]; decide)
  case unknownTwo1Low rest =>
    exact exists_row_of_mem (mask := 0xFC00#16) (put_or_put_and_top 0b000101#6 rest rfl) (by rw [mnemonic]; decide)
  case unknownTwo1High rest =>
    exact exists_row_of_mem (mask := 0xF800#16) (put_or_put_and_top 0b00011#5 rest rfl) (by rw [mnemonic]; decide)

/-- Settles O53: the row of the decoded instruction matches, and no other row does. -/
theorem opcodeMapIsAPartition : Obligations.OpcodeMapIsAPartition := by
  intro w
  obtain ⟨r, hr, matched, name⟩ := exists_row (decodeWord w)
  rw [encodeWord_decodeWord] at matched
  have only : opcodeRows.filter (fun r => w &&& r.mask = r.pat) = opcodeRows.filter (· = r) := by
    apply List.filter_congr
    intro r' hr'
    simp only [decide_eq_decide]
    constructor
    · exact fun h => eq_of_rows_match hr' hr h matched
    · rintro rfl
      exact matched
  rw [only, List.filter_eq, opcodeRows_nodup.count, if_pos hr, List.replicate_one, List.map_singleton, name]

end Sys2Proof
end

section
/-! Words written out from the formats, against spec/30_encoding.md R102 to R104. -/

namespace Sys2Proof

/-- Settles O54: the decoder reads each of the seven words. -/
theorem writtenOutWordsDecode : Obligations.WrittenOutWordsDecode :=
  ⟨rfl, rfl, rfl, rfl, rfl, rfl, rfl⟩

end Sys2Proof
end

section
/-! The invariant, against spec/60_exceptions.md R262 and R264: memory stays in its canonical form, and a halt names
the word it was raised by. -/

namespace Sys2Proof.Machine

open Sys2Proof.Safety

@[simp] theorem mem_jumpIf (taken : Bool) (off : BitVec 10) (s : State) : (jumpIf taken off s).mem = s.mem := by
  cases taken <;> rfl

@[simp] theorem mem_resolveStackOperand (bw : Width) (op : Operand) (s : State) :
    (resolveStackOperand bw op s).st.mem = s.mem := by
  rw [resolveStackOperand, mem_resolveSrc, State.mem_setReg]

/-- Every instruction answers a next state, and keeps the canonical form of memory. -/
theorem exec_keeps_wf (i : Instr) {s : State} (hm : s.mem.wf = true) :
    ∃ t, exec i s = .next t ∧ t.mem.wf = true := by
  cases i
  case jne | jeq | jnc | jc | jn | jge | jl | jmp => exact ⟨_, rfl, by rwa [mem_jumpIf]⟩
  case rrc | rra | sxt => exact ⟨_, rfl, wf_commit (by rwa [mem_resolveSrc])⟩
  case swpb => exact ⟨_, rfl, wf_writeLoc (by rwa [mem_resolveSrc])⟩
  case push | call => exact ⟨_, rfl, by simp [Memory.wf_store, hm]⟩
  case add | sub | xor | and => exact ⟨_, rfl, wf_commit (by rwa [mem_resolveTwo])⟩
  case mov | bic | bis => exact ⟨_, rfl, wf_writeLoc (by rwa [mem_resolveTwo])⟩
  case cmp => exact ⟨_, rfl, by rwa [mem_writeFlags, mem_resolveTwo]⟩
  case reti | unknownSingle7 | addc | subc | dadd | bit | unknownTwo0 | unknownTwo1Low | unknownTwo1High =>
    exact ⟨_, rfl, hm⟩

theorem haltConsistent_of_running {s : State} (h : s.run = .running) : haltConsistent s = true := by
  rw [haltConsistent, h]

/-- A fatal instruction's halt names its own word, fetched two below PC. -/
theorem haltConsistent_raise {i : Instr} {k : FatalKind} (h : fatalKind i = some k) (s : State) :
    haltConsistent (s.raise k (encodeWord i)) = true := by
  have record : (s.raise k (encodeWord i)).run = .halted ⟨k, s.pc - 2#16, encodeWord i⟩ := rfl
  have pc : (s.raise k (encodeWord i)).pc = s.pc - 2#16 + 2#16 := (BitVec.sub_add_cancel s.pc 2#16).symm
  simp only [haltConsistent, record, pc, decodeWord_encodeWord, h, beq_self_eq_true, Bool.and_true]

theorem step_of_halted {s : State} {record : FaultRecord} (h : s.run = .halted record) : step s = .next s := by
  rw [step, h]

/-- Settles O46: a halted core does not move; in a running one an instruction that raises nothing leaves it running,
and a fatal one halts it with its own word. -/
theorem stepKeepsInvariant : Obligations.StepKeepsInvariant := by
  intro s t hi ht
  cases hr : s.run with
  | halted record =>
    cases ht.symm.trans (step_of_halted hr)
    exact hi
  | running =>
    obtain ⟨hm, -⟩ := Bool.and_eq_true_iff.mp hi
    rw [step_of_running hr] at ht
    obtain ⟨u, hu, wf⟩ := exec_keeps_wf (decodeWord (s.mem.readWord s.pc)) (s := s.advance) hm
    cases ht.symm.trans hu
    refine Bool.and_eq_true_iff.mpr ⟨wf, ?_⟩
    cases hk : fatalKind (decodeWord (s.mem.readWord s.pc)) with
    | none =>
      obtain ⟨v, hv, run⟩ := exec_of_not_fatal hk s.advance
      cases hu.symm.trans hv
      exact haltConsistent_of_running (run.trans hr)
    | some k =>
      cases hu.symm.trans (exec_of_fatal hk s.advance)
      exact haltConsistent_raise hk s.advance

/-- Settles O47: nothing is listed in memory at reset, and the core runs. -/
theorem resetMeetsInvariant : Obligations.ResetMeetsInvariant :=
  ⟨rfl, rfl⟩

end Sys2Proof.Machine
end

section
/-! The step and its halts, against spec/60_exceptions.md R262, R264, R275 and R276. -/

namespace Sys2Proof.Machine

open Sys2Proof.Safety

/-- Settles O45: the instruction at PC completes, and it alone says whether the core still runs. -/
theorem stepAlwaysAnswersANextState : Obligations.StepAlwaysAnswersANextState := by
  intro s
  cases hr : s.run with
  | halted record => exact ⟨s, step_of_halted hr, fun h => by cases h⟩
  | running =>
    rw [step_of_running hr]
    cases hk : fatalKind (decodeWord (s.mem.readWord s.pc)) with
    | none =>
      obtain ⟨t, ht, run⟩ := exec_of_not_fatal hk s.advance
      exact ⟨t, ht, fun _ => by simp [run, hr]⟩
    | some k => exact ⟨_, exec_of_fatal hk s.advance, fun _ => by simp⟩

/-- Settles O42: the step advances PC and raises, and the word raised with is the one fetched. -/
theorem haltingStepChangesOnlyPc : Obligations.HaltingStepChangesOnlyPc := by
  intro s k hr hk
  have raised := exec_of_fatal hk s.advance
  rw [encodeWord_decodeWord] at raised
  refine ⟨_, (step_of_running hr).trans raised, ?_, State.pc_advance s, fun r hp => ?_, rfl⟩
  · rw [State.run_raise, State.pc_advance, BitVec.add_sub_cancel]
  · rw [State.reg_raise, State.reg_advance_ne _ _ hp]

/-- Settles O43: by induction on the number of steps. -/
theorem haltIsLatched : Obligations.HaltIsLatched := by
  intro s record n h
  refine ⟨?_, fun sp => rfl⟩
  induction n with
  | zero => rfl
  | succ n ih =>
    have stays : core.step s = .next s := step_of_halted h
    simp only [Host.Core.run, stays, ih]

/-- Settles O40: each of the four rows is fatal, and its word is `opc2` above the ignored low bits. -/
theorem unimplementedArithmeticHalts : Obligations.UnimplementedArithmeticHalts := by
  intro s b12
  have word (opc2 : BitVec 4) : twoFatalWord opc2 b12 = BitVec.ofNat 16 (opc2.toNat * 2 ^ 12 + b12.toNat) :=
    put_or_put_eq_ofNat opc2 b12
  exact ⟨halts_of_fatal (i := .addc b12) rfl (word 6) s, halts_of_fatal (i := .subc b12) rfl (word 7) s,
    halts_of_fatal (i := .dadd b12) rfl (word 10) s, halts_of_fatal (i := .bit b12) rfl (word 11) s⟩

end Sys2Proof.Machine
end

section
/-! What the step runs, against spec/30_encoding.md R101 and spec/60_exceptions.md R275. -/

namespace Sys2Proof

theorem length_of_takeWords {n : Nat} {bs rest : List Byte} {ws : List Word} (h : takeWords n bs = some (ws, rest)) :
    ws.length = n := by
  fun_induction takeWords generalizing ws with
  | case1 => cases h; rfl
  | case2 n lo hi bs ih =>
    obtain ⟨⟨ws', rest'⟩, took, e⟩ := Option.map_eq_some_iff.mp h
    cases e
    rw [List.length_cons, ih took]
  | case3 => cases h

/-- What `decode` reads is the instruction of the first word, with as many extension words as it takes. -/
theorem decode_ok {lo hi : Byte} {bs rest : List Byte} {a : Assembled} (h : decode (lo :: hi :: bs) = .ok (a, rest)) :
    a.instr = decodeWord (wordOfBytes lo hi) ∧ a.wellFormed = true := by
  rw [decode] at h
  split at h
  case h_1 ext rest' took =>
    cases h
    have count : ext.length = (decodeWord (wordOfBytes lo hi)).extWords := by
      rw [length_of_takeWords took, ← extCount_encodeWord, encodeWord_decodeWord]
    exact ⟨rfl, beq_iff_eq.mpr count⟩
  case h_2 => cases h

namespace Machine

/-- Settles O44: the first two bytes at PC are the word the step fetches. -/
theorem stepRunsTheDecodedInstruction : Obligations.StepRunsTheDecodedInstruction := by
  intro s hr
  refine ⟨fun a rest h => ?_, fun i h => ?_⟩
  · obtain ⟨instr, wf⟩ := decode_ok h
    exact ⟨wf, instr ▸ step_of_running hr⟩
  · rw [step_of_running hr, h, decodeWord_encodeWord, State.advance]

end Machine
end Sys2Proof
end

section
/-! The paths the operand instructions share (spec/41_single_operand.md R170, spec/42_two_operand.md R200): each
instruction is one of them with its own result. -/

namespace Sys2Proof.Machine

/-- The path of RRC, RRA and SXT: the result of the old carry and the operand sets the flags and is written back. -/
def commitSingle (f : Bool → Word → AluResult) (bw : Width) (op : Operand) (s : State) : State :=
  let r := resolveSrc bw op s
  commit bw r.loc (f (r.st.flag .C) (readLoc bw r.loc r.st)) r.st

/-- The path of SWPB: no flags. -/
def writeSingle (f : Word → Word) (bw : Width) (op : Operand) (s : State) : State :=
  let r := resolveSrc bw op s
  writeLoc bw r.loc (f (readLoc bw r.loc r.st)) r.st

/-- The path of ADD, SUB, XOR and AND: the result of source and destination sets the flags and is written back. -/
def commitTwo (f : Word → Word → AluResult) (bw : Width) (src : Operand) (dst : Dest) (s : State) : State :=
  let o := resolveTwo bw src dst s
  commit bw o.loc (f o.src (o.dst bw)) o.st

/-- The path of MOV, BIC and BIS: no flags. -/
def writeTwo (f : Word → Word → Word) (bw : Width) (src : Operand) (dst : Dest) (s : State) : State :=
  let o := resolveTwo bw src dst s
  writeLoc bw o.loc (f o.src (o.dst bw)) o.st

/-- The path of CMP: the flags alone. -/
def flagsTwo (f : Word → Word → AluResult) (bw : Width) (src : Operand) (dst : Dest) (s : State) : State :=
  let o := resolveTwo bw src dst s
  writeFlags bw (f o.src (o.dst bw)) o.st

/-- The state PUSH leaves: the operand's value at SP as the operand's resolution leaves it. -/
def pushState (bw : Width) (op : Operand) (s : State) : State :=
  let r := resolveStackOperand bw op s
  r.st.store bw r.st.sp (readLoc bw r.loc r.st)

/-- The state CALL leaves: the address after all operand words at SP, then PC takes the operand's value. -/
def callState (bw : Width) (op : Operand) (s : State) : State :=
  let r := resolveStackOperand bw op s
  (r.st.store .word r.st.sp r.st.pc).setPc (readLoc bw r.loc r.st)

theorem exec_next_unique {i : Instr} {s u t : State} (hu : exec i s = .next u) (ht : exec i s = .next t) : u = t :=
  Host.Outcome.next.inj (hu.symm.trans ht)

section
variable (bw : Width) (op src : Operand) (dst : Dest) (s : State)

theorem exec_rrc : exec (.rrc bw op) s = .next (commitSingle (rrcResult bw) bw op s) := rfl
theorem exec_rra : exec (.rra bw op) s = .next (commitSingle (rraResult bw) bw op s) := rfl
theorem exec_sxt : exec (.sxt bw op) s = .next (commitSingle (fun _ => sxtResult) bw op s) := rfl
theorem exec_swpb : exec (.swpb bw op) s = .next (writeSingle swpbFn bw op s) := rfl
theorem exec_push : exec (.push bw op) s = .next (pushState bw op s) := rfl
theorem exec_call : exec (.call bw op) s = .next (callState bw op s) := rfl
theorem exec_add : exec (.add bw src dst) s = .next (commitTwo (addResult bw) bw src dst s) := rfl
theorem exec_sub : exec (.sub bw src dst) s = .next (commitTwo (subResult bw) bw src dst s) := rfl
theorem exec_xor : exec (.xor bw src dst) s = .next (commitTwo (xorResult bw) bw src dst s) := rfl
theorem exec_and : exec (.and bw src dst) s = .next (commitTwo (andResult bw) bw src dst s) := rfl
theorem exec_mov : exec (.mov bw src dst) s = .next (writeTwo (fun v _ => v) bw src dst s) := rfl
theorem exec_bic_eq_writeTwo : exec (.bic bw src dst) s = .next (writeTwo (bicResult bw) bw src dst s) := rfl
theorem exec_bis : exec (.bis bw src dst) s = .next (writeTwo (bisResult bw) bw src dst s) := rfl
theorem exec_cmp : exec (.cmp bw src dst) s = .next (flagsTwo (subResult bw) bw src dst s) := rfl

end

end Sys2Proof.Machine
end

section
/-! SR's twelve bits that are not flags, against spec/10_state.md R31: every operation that does not read or write SR as
a register commutes with replacing them. -/

namespace Sys2Proof.Machine

open Sys2Proof.Safety

variable (x : Word) (s : State)

@[simp] theorem mem_withOtherBits : (withOtherBits x s).mem = s.mem := rfl

theorem reg_withOtherBits_ne {r : Reg} (h : r ≠ Reg.sr) : (withOtherBits x s).reg r = s.reg r :=
  State.reg_setReg_ne _ _ _ _ h

@[simp] theorem pc_withOtherBits : (withOtherBits x s).pc = s.pc := reg_withOtherBits_ne x s Reg.pc_ne_sr
@[simp] theorem sp_withOtherBits : (withOtherBits x s).sp = s.sp := reg_withOtherBits_ne x s Reg.sp_ne_sr

@[simp] theorem store_withOtherBits (bw : Width) (a v : Word) :
    (withOtherBits x s).store bw a v = withOtherBits x (s.store bw a v) := rfl

theorem setReg_setReg_same (r : Reg) (v w : Word) : (s.setReg r v).setReg r w = s.setReg r w := by
  refine State.ext_reg (fun j => ?_) rfl rfl
  simp only [State.reg_setReg]
  split <;> rfl

theorem setReg_comm {i j : Reg} (h : i ≠ j) (v w : Word) : (s.setReg i v).setReg j w = (s.setReg j w).setReg i v := by
  refine State.ext_reg (fun k => ?_) rfl rfl
  by_cases hj : j = k
  · subst hj
    simp [State.reg_setReg, h]
  · simp [State.reg_setReg, hj]

theorem setReg_withOtherBits {r : Reg} (h : r ≠ Reg.sr) (v : Word) :
    (withOtherBits x s).setReg r v = withOtherBits x (s.setReg r v) := by
  have sr : (s.setReg r v).sr = s.sr := State.reg_setReg_ne s r Reg.sr v h.symm
  rw [withOtherBits, withOtherBits, sr]
  exact setReg_comm s h.symm _ v

@[simp] theorem advance_withOtherBits : (withOtherBits x s).advance = withOtherBits x s.advance := by
  rw [State.advance, pc_withOtherBits]
  exact setReg_withOtherBits x s Reg.pc_ne_sr _

@[simp] theorem fetchWord_withOtherBits : (withOtherBits x s).fetchWord = s.fetchWord := by
  rw [State.fetchWord, pc_withOtherBits, mem_withOtherBits, State.fetchWord]

theorem indexBase_withOtherBits {r : Reg} (h : r ≠ Reg.sr) (base : IndexPcBase) :
    indexBase base r (withOtherBits x s) = indexBase base r s := by
  cases base <;> simp only [indexBase, reg_withOtherBits_ne x s h]

/-! ## Operands -/

/-- The address of an operand never depends on SR: in the modes above 0 register 2 is a constant (R35). -/
theorem resolveSrc_withOtherBits (bw : Width) (op : Operand) :
    resolveSrc bw op (withOtherBits x s) = ⟨(resolveSrc bw op s).loc, withOtherBits x (resolveSrc bw op s).st⟩ := by
  obtain ⟨r, m⟩ := op
  cases hc : constOf ⟨r, m⟩ with
  | some v => rw [resolveSrc_const hc, resolveSrc_const hc]
  | none =>
    have ne (hm : m ≠ .register) : r ≠ Reg.sr := by
      rintro rfl
      obtain ⟨v, hv⟩ := constOf_sr hm
      cases hv.symm.trans hc
    simp only [resolveSrc, hc]
    cases m with
    | register => rfl
    | indexed =>
      simp only [fetchWord_withOtherBits, advance_withOtherBits, indexBase_withOtherBits x _ (ne (by decide))]
    | indirect => rw [reg_withOtherBits_ne x s (ne (by decide))]
    | autoinc => rw [reg_withOtherBits_ne x s (ne (by decide)), setReg_withOtherBits x s (ne (by decide))]

theorem resolveDst_withOtherBits (dst : Dest) :
    resolveDst dst (withOtherBits x s) = ⟨(resolveDst dst s).loc, withOtherBits x (resolveDst dst s).st⟩ := by
  obtain ⟨r, m⟩ := dst
  cases m with
  | register => rfl
  | memory =>
    simp only [resolveDst, fetchWord_withOtherBits, advance_withOtherBits]
    split
    · rfl
    · next h => rw [indexBase_withOtherBits x _ h]

/-- A location other than SR reads the same. -/
theorem readLoc_withOtherBits {loc : Loc} (h : loc ≠ .reg Reg.sr) (bw : Width) :
    readLoc bw loc (withOtherBits x s) = readLoc bw loc s := by
  cases loc with
  | reg r => rw [readLoc, readLoc, reg_withOtherBits_ne x s fun e => h (by rw [e])]
  | mem a => rfl
  | const v => rfl

theorem writeLoc_withOtherBits {loc : Loc} (h : loc ≠ .reg Reg.sr) (bw : Width) (v : Word) :
    writeLoc bw loc v (withOtherBits x s) = withOtherBits x (writeLoc bw loc v s) := by
  cases loc with
  | reg r =>
    have ne : r ≠ Reg.sr := fun e => h (by rw [e])
    rw [writeLoc, writeLoc, reg_withOtherBits_ne x s ne, setReg_withOtherBits x s ne]
  | mem a => rfl
  | const v => rfl

/-! ## Flags -/

/-- No flag is among the twelve bits. -/
theorem getLsbD_flag_or_otherBits (sr : Word) (f : Flag) :
    ((sr &&& 0x0107#16) ||| otherBits x).getLsbD f.pos = sr.getLsbD f.pos := by
  cases f <;> simp [Flag.pos, otherBits]

theorem sr_withOtherBits : (withOtherBits x s).sr = (s.sr &&& 0x0107#16) ||| otherBits x := State.reg_setReg_same ..

@[simp] theorem flag_withOtherBits (f : Flag) : (withOtherBits x s).flag f = s.flag f := by
  rw [State.flag, sr_withOtherBits, getLsbD_flag_or_otherBits, State.flag]

theorem putBit_or_otherBits (sr : Word) (f : Flag) (b : Bool) :
    putBit ((sr &&& 0x0107#16) ||| otherBits x) f.pos b = (putBit sr f.pos b &&& 0x0107#16) ||| otherBits x := by
  apply BitVec.eq_of_getLsbD_eq
  intro i hi
  by_cases h : i = f.pos
  · subst h
    rw [getLsbD_flag_or_otherBits, getLsbD_putBit _ _ _ _ f.pos_lt, getLsbD_putBit _ _ _ _ f.pos_lt, if_pos rfl,
      if_pos rfl]
  · simp only [getLsbD_putBit _ _ _ _ f.pos_lt, BitVec.getLsbD_or, BitVec.getLsbD_and, if_neg h]

@[simp] theorem setFlag_withOtherBits (f : Flag) (b : Bool) :
    (withOtherBits x s).setFlag f b = withOtherBits x (s.setFlag f b) := by
  rw [State.setFlag, sr_withOtherBits, putBit_or_otherBits, withOtherBits, withOtherBits, sr_setFlag]
  exact (setReg_setReg_same s Reg.sr _ _).trans (setReg_setReg_same s Reg.sr _ _).symm

@[simp] theorem writeFlags_withOtherBits (bw : Width) (o : AluResult) :
    writeFlags bw o (withOtherBits x s) = withOtherBits x (writeFlags bw o s) := by
  simp only [writeFlags, updateZN, setFlag_withOtherBits]

theorem commit_withOtherBits {loc : Loc} (h : loc ≠ .reg Reg.sr) (bw : Width) (o : AluResult) :
    commit bw loc o (withOtherBits x s) = withOtherBits x (commit bw loc o s) := by
  rw [commit, writeFlags_withOtherBits, writeLoc_withOtherBits x _ h, commit]

/-- A jump reads flags alone. -/
theorem jumpIf_withOtherBits (taken : Bool) (off : BitVec 10) :
    jumpIf taken off (withOtherBits x s) = withOtherBits x (jumpIf taken off s) := by
  cases taken with
  | false => rfl
  | true =>
    simp only [jumpIf, if_true, pc_withOtherBits]
    exact setReg_withOtherBits x s Reg.pc_ne_sr _

theorem raise_withOtherBits (k : FatalKind) (w : Word) :
    (withOtherBits x s).raise k w = withOtherBits x (s.raise k w) := by
  rw [State.raise, pc_withOtherBits]
  rfl

/-! ## Instructions that do not name SR -/

theorem resolveStackOperand_withOtherBits (bw : Width) (op : Operand) :
    resolveStackOperand bw op (withOtherBits x s) =
      ⟨(resolveStackOperand bw op s).loc, withOtherBits x (resolveStackOperand bw op s).st⟩ := by
  have sp : (withOtherBits x s).setSp ((withOtherBits x s).sp - 2#16) = withOtherBits x (s.setSp (s.sp - 2#16)) := by
    rw [sp_withOtherBits]
    exact setReg_withOtherBits x s Reg.sp_ne_sr _
  rw [resolveStackOperand, sp, resolveSrc_withOtherBits, resolveStackOperand]

section
variable {op : Operand} (hop : (op.reg == Reg.sr && op.mode == .register) = false) (bw : Width)
include hop

theorem resolveSrc_loc_ne_sr : (resolveSrc bw op s).loc ≠ .reg Reg.sr := by
  rw [resolveSrc]
  split
  · simp
  · split <;> simp_all

theorem commitSingle_withOtherBits (f : Bool → Word → AluResult) :
    commitSingle f bw op (withOtherBits x s) = withOtherBits x (commitSingle f bw op s) := by
  have ne := resolveSrc_loc_ne_sr s hop bw
  simp only [commitSingle, resolveSrc_withOtherBits, flag_withOtherBits, readLoc_withOtherBits x _ ne,
    commit_withOtherBits x _ ne]

theorem writeSingle_withOtherBits (f : Word → Word) :
    writeSingle f bw op (withOtherBits x s) = withOtherBits x (writeSingle f bw op s) := by
  have ne := resolveSrc_loc_ne_sr s hop bw
  simp only [writeSingle, resolveSrc_withOtherBits, readLoc_withOtherBits x _ ne, writeLoc_withOtherBits x _ ne]

theorem pushState_withOtherBits : pushState bw op (withOtherBits x s) = withOtherBits x (pushState bw op s) := by
  have ne : (resolveStackOperand bw op s).loc ≠ .reg Reg.sr := resolveSrc_loc_ne_sr _ hop bw
  simp only [pushState, resolveStackOperand_withOtherBits, sp_withOtherBits, readLoc_withOtherBits x _ ne,
    store_withOtherBits]

theorem callState_withOtherBits : callState bw op (withOtherBits x s) = withOtherBits x (callState bw op s) := by
  have ne : (resolveStackOperand bw op s).loc ≠ .reg Reg.sr := resolveSrc_loc_ne_sr _ hop bw
  simp only [callState, resolveStackOperand_withOtherBits, sp_withOtherBits, pc_withOtherBits,
    readLoc_withOtherBits x _ ne, store_withOtherBits, setReg_withOtherBits x _ Reg.pc_ne_sr]

end

section
variable {src : Operand} {dst : Dest} (hsrc : (src.reg == Reg.sr && src.mode == .register) = false)
  (hdst : (dst.reg == Reg.sr && dst.mode == .register) = false) (bw : Width)
include hsrc

theorem resolveTwo_withOtherBits :
    resolveTwo bw src dst (withOtherBits x s) =
      { resolveTwo bw src dst s with st := withOtherBits x (resolveTwo bw src dst s).st } := by
  simp only [resolveTwo, resolveSrc_withOtherBits, resolveDst_withOtherBits,
    readLoc_withOtherBits x _ (resolveSrc_loc_ne_sr s hsrc bw)]

include hdst

omit hsrc in
theorem resolveTwo_loc_ne_sr : (resolveTwo bw src dst s).loc ≠ .reg Reg.sr := by
  simp only [resolveTwo, resolveDst]
  split <;> simp_all

theorem flagsTwo_withOtherBits (f : Word → Word → AluResult) :
    flagsTwo f bw src dst (withOtherBits x s) = withOtherBits x (flagsTwo f bw src dst s) := by
  have ne := resolveTwo_loc_ne_sr (src := src) s hdst bw
  simp only [flagsTwo, resolveTwo_withOtherBits x s hsrc, TwoOperands.dst, readLoc_withOtherBits x _ ne,
    writeFlags_withOtherBits]

theorem writeTwo_withOtherBits (f : Word → Word → Word) :
    writeTwo f bw src dst (withOtherBits x s) = withOtherBits x (writeTwo f bw src dst s) := by
  have ne := resolveTwo_loc_ne_sr (src := src) s hdst bw
  simp only [writeTwo, resolveTwo_withOtherBits x s hsrc, TwoOperands.dst, readLoc_withOtherBits x _ ne,
    writeLoc_withOtherBits x _ ne]

theorem commitTwo_withOtherBits (f : Word → Word → AluResult) :
    commitTwo f bw src dst (withOtherBits x s) = withOtherBits x (commitTwo f bw src dst s) := by
  have ne := resolveTwo_loc_ne_sr (src := src) s hdst bw
  simp only [commitTwo, resolveTwo_withOtherBits x s hsrc, TwoOperands.dst, readLoc_withOtherBits x _ ne,
    commit_withOtherBits x _ ne]

end

variable {x s}

theorem exec_withOtherBits_of_path {i : Instr} {g : State → State} {t : State}
    (hx : ∀ s, exec i s = .next (g s)) (hg : g (withOtherBits x s) = withOtherBits x (g s)) (ht : exec i s = .next t) :
    exec i (withOtherBits x s) = .next (withOtherBits x t) := by
  rw [← exec_next_unique (hx s) ht, hx, hg]

end Sys2Proof.Machine
end

section
/-! SR's inert bits, against spec/10_state.md R31 (decision D23). -/

namespace Sys2Proof.Machine

open Sys2Proof.Safety

/-- Settles O48: the path of every instruction commutes with replacing the twelve bits. -/
theorem otherStatusBitsAreInert : Obligations.OtherStatusBitsAreInert := by
  intro i s t x hn ht
  cases i
  case jne | jeq | jnc | jc | jn | jge | jl | jmp =>
    cases ht
    simp only [exec, execJne, execJeq, execJnc, execJc, execJn, execJge, execJl, execJmp, flag_withOtherBits,
      jumpIf_withOtherBits]
  case reti | unknownSingle7 | addc | subc | dadd | bit | unknownTwo0 | unknownTwo1Low | unknownTwo1High =>
    exact exec_withOtherBits_of_path (exec_of_fatal rfl) (raise_withOtherBits ..) ht
  case rrc => exact exec_withOtherBits_of_path (exec_rrc _ _) (commitSingle_withOtherBits x s hn _ _) ht
  case rra => exact exec_withOtherBits_of_path (exec_rra _ _) (commitSingle_withOtherBits x s hn _ _) ht
  case sxt => exact exec_withOtherBits_of_path (exec_sxt _ _) (commitSingle_withOtherBits x s hn _ _) ht
  case swpb => exact exec_withOtherBits_of_path (exec_swpb _ _) (writeSingle_withOtherBits x s hn _ _) ht
  case push => exact exec_withOtherBits_of_path (exec_push _ _) (pushState_withOtherBits x s hn _) ht
  case call => exact exec_withOtherBits_of_path (exec_call _ _) (callState_withOtherBits x s hn _) ht
  all_goals obtain ⟨hs, hd⟩ := Bool.or_eq_false_iff.mp hn
  case add => exact exec_withOtherBits_of_path (exec_add _ _ _) (commitTwo_withOtherBits x s hs hd _ _) ht
  case sub => exact exec_withOtherBits_of_path (exec_sub _ _ _) (commitTwo_withOtherBits x s hs hd _ _) ht
  case xor => exact exec_withOtherBits_of_path (exec_xor _ _ _) (commitTwo_withOtherBits x s hs hd _ _) ht
  case and => exact exec_withOtherBits_of_path (exec_and _ _ _) (commitTwo_withOtherBits x s hs hd _ _) ht
  case mov => exact exec_withOtherBits_of_path (exec_mov _ _ _) (writeTwo_withOtherBits x s hs hd _ _) ht
  case bic => exact exec_withOtherBits_of_path (exec_bic_eq_writeTwo _ _ _) (writeTwo_withOtherBits x s hs hd _ _) ht
  case bis => exact exec_withOtherBits_of_path (exec_bis _ _ _) (writeTwo_withOtherBits x s hs hd _ _) ht
  case cmp => exact exec_withOtherBits_of_path (exec_cmp _ _ _) (flagsTwo_withOtherBits x s hs hd _ _) ht

end Sys2Proof.Machine
end

section
/-! Stores and mixed widths, against spec/20_memory.md R62 to R67. -/

namespace Sys2Proof.Machine

namespace Memory

variable {m : Memory}

theorem read_store_byte (hm : m.wf = true) (a v : Word) (x : Nat) :
    (m.store .byte a v).read x = if x = a.toNat then v.extractLsb' 0 8 else m.read x := by
  split
  · next h => rw [h]; exact read_write_same hm
  · next h => exact read_write_ne h

theorem read_store_word (hm : m.wf = true) (a v : Word) (x : Nat) :
    (m.store .word a v).read x =
      if x = a.toNat then v.extractLsb' 0 8
      else if x = (a.toNat + 1) % 65536 then v.extractLsb' 8 8
      else m.read x := by
  rw [← toNat_next]
  split
  · next h => rw [h]; exact read_writeWord_lo hm
  · next h =>
    split
    · next h' => rw [h']; exact read_writeWord_hi hm
    · next h' => exact read_writeWord_ne h h'

end Memory

/-- Settles O2: a word store is two byte stores, the second at the next address. -/
theorem writeStoresItsBytesOnly : Obligations.WriteStoresItsBytesOnly := by
  intro m a v hm
  exact ⟨Memory.wf_store hm, Memory.wf_store hm, Memory.read_store_byte hm a v, Memory.read_store_word hm a v⟩

namespace Memory

variable {m : Memory} (a v : Word)

theorem readByte_store_word_lo (hm : m.wf = true) : (m.store .word a v).readByte a = v.extractLsb' 0 8 :=
  read_writeWord_lo hm

theorem readByte_store_word_hi (hm : m.wf = true) : (m.store .word a v).readByte (next a) = v.extractLsb' 8 8 :=
  read_writeWord_hi hm

/-- A word stored is read back as it is. -/
theorem readWord_store_word (hm : m.wf = true) : (m.store .word a v).readWord a = v := by
  rw [readWord, readByte_store_word_lo a v hm, readByte_store_word_hi a v hm, wordOfBytes_extract]

theorem readByte_store_byte_same (hm : m.wf = true) : (m.store .byte a v).readByte a = v.extractLsb' 0 8 :=
  read_write_same hm

theorem readByte_store_byte_ne {a b : Word} (h : b.toNat ≠ a.toNat) : (m.store .byte a v).readByte b = m.readByte b :=
  read_write_ne h

end Memory

/-- Reducing to a width is the remainder modulo 2^W. -/
theorem toNat_and_mask (bw : Width) (v : Word) : (v &&& mask bw).toNat = v.toNat % 2 ^ widthBits bw := by
  cases bw
  · exact Nat.and_two_pow_sub_one_eq_mod v.toNat 16
  · exact Nat.and_two_pow_sub_one_eq_mod v.toNat 8

theorem setWidth_extract_lo (v : Word) : (v.extractLsb' 0 8).setWidth 16 = v &&& 0x00FF#16 := by
  apply BitVec.eq_of_toNat_eq
  rw [BitVec.toNat_setWidth_of_le (by decide), BitVec.extractLsb'_toNat]
  exact (toNat_and_mask .byte v).symm

theorem setWidth_extract_hi (v : Word) : (v.extractLsb' 8 8).setWidth 16 = v >>> 8 := by
  apply BitVec.eq_of_toNat_eq
  rw [BitVec.toNat_setWidth_of_le (by decide), BitVec.extractLsb'_toNat, BitVec.toNat_ushiftRight,
    Nat.shiftRight_eq_div_pow]
  omega

theorem wordOfBytes_extract_lo (w : Word) (b : Byte) :
    wordOfBytes b (w.extractLsb' 0 8) = (w <<< 8) ||| b.setWidth 16 := by
  rw [wordOfBytes]
  congr 1
  apply BitVec.eq_of_toNat_eq
  rw [BitVec.toNat_shiftLeft, BitVec.toNat_shiftLeft, BitVec.toNat_setWidth_of_le (by decide), BitVec.extractLsb'_toNat,
    Nat.shiftRight_zero, Nat.shiftLeft_eq, Nat.shiftLeft_eq]
  omega
/-- Settles O3: each read meets the byte stored at its address, and the two bytes of a word are side by side. -/
theorem mixedWidthsSeeTheBytes : Obligations.MixedWidthsSeeTheBytes := by
  intro m a v w hm
  have after : a + 1#16 = Memory.next a := rfl
  rw [after]
  refine ⟨⟨?_, ?_, ?_⟩, ?_, ?_⟩
  · exact Memory.readWord_store_word a v hm
  · rw [Memory.load, Memory.readByte_store_word_lo a v hm, setWidth_extract_lo]
  · rw [Memory.load, Memory.readByte_store_word_hi a v hm, setWidth_extract_hi]
  · rw [Memory.load, Memory.readWord, Memory.readByte_store_byte_same _ _ (Memory.wf_store hm),
      Memory.readByte_store_byte_ne _ (Memory.next_toNat_ne a).symm, Memory.readByte_store_byte_same a v hm,
      wordOfBytes_extract_lo, setWidth_extract_lo]
  · rw [Memory.load, Memory.readWord, Memory.readByte_store_byte_same _ _ hm,
      Memory.readByte_store_byte_ne _ (Memory.next_toNat_ne a).symm, wordOfBytes_extract_lo, Memory.load,
      ← setWidth_extract_lo, Memory.readWord, extract_lo_wordOfBytes]

/-- Settles O4: the address after 0xFFFF is 0. -/
theorem wordAccessAtTopWraps : Obligations.WordAccessAtTopWraps := by
  intro m v hm
  exact ⟨m.toNat_readWord 0xFFFF#16, Memory.read_writeWord_lo hm, Memory.read_writeWord_hi hm⟩

end Sys2Proof.Machine
end

section
/-! The flags of a result, against spec/40_operand_resolution.md section 4 (R152). -/

namespace Sys2Proof.Machine

open Sys2Proof.Safety

theorem signBit_eq (bw : Width) (v : Word) : signBit bw v = v.getLsbD (widthBits bw - 1) := by
  cases bw <;> rfl

theorem beq_zero_eq_decide (v : Word) : (v == 0#16) = decide (v = 0#16) := rfl

@[simp] theorem otherBits_setFlag (s : State) (f : Flag) (b : Bool) :
    otherBits (s.setFlag f b).sr = otherBits s.sr := by
  rw [sr_setFlag, otherBits_putBit]

/-- Settles O7: two flag writes, of Z and of N. -/
theorem updateZNTouchesZAndNOnly : Obligations.UpdateZNTouchesZAndNOnly := by
  intro bw v s
  have flags : flagsAre (s.flag .C) (decide (v = 0#16)) (v.getLsbD (widthBits bw - 1)) (s.flag .V)
      (updateZN bw v s) := by
    simp [flagsAre, updateZN, flag_setFlag_ne, signBit_eq, beq_zero_eq_decide]
  have others : otherBits (updateZN bw v s).sr = otherBits s.sr := by simp only [updateZN, otherBits_setFlag]
  have regs (r : Reg) (h : r ≠ Reg.sr) : (updateZN bw v s).reg r = s.reg r := by
    rw [updateZN, reg_setFlag_ne _ _ _ h, reg_setFlag_ne _ _ _ h]
  exact ⟨flags, others, regs, rfl, rfl⟩

end Sys2Proof.Machine
end

section
/-! Locations read and written, against spec/40_operand_resolution.md R150 and R151. -/

namespace Sys2Proof.Machine

open Sys2Proof.Safety

theorem toNat_readLoc_lt (bw : Width) (loc : Loc) (s : State) : (readLoc bw loc s).toNat < 2 ^ widthBits bw := by
  rw [← readLoc_and_mask, toNat_and_mask]
  exact Nat.mod_lt _ (Nat.two_pow_pos _)

/-- Settles O12: every location is read reduced to the width. -/
theorem operandValueFitsItsWidth : Obligations.OperandValueFitsItsWidth := by
  intro bw s
  exact ⟨fun _ => toNat_and_mask bw _, fun _ => rfl, toNat_and_mask bw, fun _ => and_mask_word _,
    fun loc => toNat_readLoc_lt bw loc s⟩

/-- Settles O13: what a write-back leaves at its location, and what it leaves alone. -/
theorem writeBackGoesToItsLocation : Obligations.WriteBackGoesToItsLocation := by
  intro bw loc v s hm
  have dropped (c : Word) (h : loc = .const c) : writeLoc bw loc v s = s := by rw [h, writeLoc]
  exact ⟨holds_writeLoc hm bw loc v, fun _ => reg_writeLoc_ne, fun _ => read_writeLoc_ne, dropped,
    run_writeLoc bw loc v s, wf_writeLoc hm⟩

end Sys2Proof.Machine
end

section
/-! The resolvers mode by mode, against spec/10_state.md section 4 and spec/40_operand_resolution.md sections 1 to 3. -/

namespace Sys2Proof.Machine

open Sys2Proof.Safety

theorem isSome_constOf_iff (op : Operand) :
    (constOf op).isSome = true ↔ (op.reg = Reg.sr ∧ op.mode ≠ .register) ∨ op.reg = Reg.cg2 := by
  obtain ⟨r, m⟩ := op
  by_cases h2 : r = Reg.sr
  · subst h2
    cases m <;> simp [constOf]
  · by_cases h3 : r = Reg.cg2
    · subst h3
      cases m <;> simp [constOf]
    · simp [constOf, h2, h3]

/-- Settles O8: the table is `constOf`, cell by cell. -/
theorem constantGeneratorTable : Obligations.ConstantGeneratorTable :=
  ⟨isSome_constOf_iff, rfl, rfl, rfl, rfl, rfl, rfl, rfl, fun _ => ⟨rfl, rfl⟩⟩

theorem constOf_register {r : Reg} (h : r ≠ Reg.cg2) : constOf ⟨r, .register⟩ = none := by
  simp [constOf, h]

theorem resolveSrc_register {r : Reg} (h : r ≠ Reg.cg2) (bw : Width) (s : State) :
    resolveSrc bw ⟨r, .register⟩ s = ⟨.reg r, s⟩ := by
  simp [resolveSrc, constOf_register h]

/-- The index base is read in the state whose PC has passed the offset word (decision D8). -/
theorem indexBase_after (r : Reg) (s : State) :
    indexBase Config.indexPcBase r s.advance = if r = 0 then s.pc + 2#16 else s.reg r := by
  split
  · next h => subst h; exact s.pc_advance
  · next h => exact State.reg_advance_ne s r h

section
variable {r : Reg} (h2 : r ≠ Reg.sr) (h3 : r ≠ Reg.cg2) (bw : Width) (s : State)
include h2 h3

theorem resolveSrc_indexed : resolveSrc bw ⟨r, .indexed⟩ s =
    ⟨.mem (s.mem.readWord s.pc + if r = 0 then s.pc + 2#16 else s.reg r), s.setPc (s.pc + 2#16)⟩ := by
  simp only [resolveSrc, constOf_of_ne (op := ⟨r, .indexed⟩) h2 h3, indexBase_after]
  rfl

theorem resolveSrc_indirect : resolveSrc bw ⟨r, .indirect⟩ s = ⟨.mem (s.reg r), s⟩ := by
  simp only [resolveSrc, constOf_of_ne (op := ⟨r, .indirect⟩) h2 h3]

theorem resolveSrc_autoinc : resolveSrc bw ⟨r, .autoinc⟩ s =
    ⟨.mem (s.reg r), s.setReg r (s.reg r + if r = 0 ∨ bw = .word then 2#16 else 1#16)⟩ := by
  have step : autoStep bw r = if r = 0 ∨ bw = .word then 2#16 else 1#16 := by
    by_cases h : r = Reg.pc <;> cases bw <;> simp [autoStep, h]
  simp only [resolveSrc, constOf_of_ne (op := ⟨r, .autoinc⟩) h2 h3, step]

end

/-- Settles O9: a constant first, then the four modes. -/
theorem sourceResolution : Obligations.SourceResolution := by
  intro bw r s
  exact ⟨fun mode v hc => resolveSrc_const hc bw s, fun h => resolveSrc_register h bw s,
    fun h2 h3 => ⟨resolveSrc_indexed h2 h3 bw s, resolveSrc_indirect h2 h3 bw s, resolveSrc_autoinc h2 h3 bw s⟩⟩

theorem resolveDst_memory_ne {r : Reg} (h : r ≠ Reg.sr) (s : State) : resolveDst ⟨r, .memory⟩ s =
    ⟨.mem (s.mem.readWord s.pc + if r = 0 then s.pc + 2#16 else s.reg r), s.setPc (s.pc + 2#16)⟩ := by
  simp only [resolveDst, if_neg h, indexBase_after]
  rfl

/-- Settles O10: register 2 is absolute, every other register is a base, and the destination is resolved in the
state the source leaves. -/
theorem destinationResolution : Obligations.DestinationResolution := by
  intro r s
  exact ⟨rfl, rfl, fun h => resolveDst_memory_ne h s, fun bw src dst => ⟨rfl, rfl, rfl, rfl⟩⟩

theorem load_eq_readWord_and_mask (bw : Width) (m : Memory) (a : Word) : m.load bw a = m.readWord a &&& mask bw := by
  cases bw with
  | word => exact (and_mask_word _).symm
  | byte =>
    rw [Memory.load, ← extract_lo_wordOfBytes (m.readByte a) (m.readByte (Memory.next a)), setWidth_extract_lo]
    rfl

/-- Settles O11: an immediate is an autoincrement of PC. -/
theorem immediateIsTheExtensionWord : Obligations.ImmediateIsTheExtensionWord := by
  intro bw s r
  have resolved : r = ⟨.mem s.pc, s.setPc (s.pc + 2#16)⟩ :=
    resolveSrc_autoinc (r := Reg.pc) (by decide) (by decide) bw s
  rw [resolved]
  exact ⟨load_eq_readWord_and_mask bw s.mem s.pc, State.reg_setReg_same ..⟩

/-- Settles O14: a constant operand is read without the register it names. -/
theorem constantRegistersAsOperands : Obligations.ConstantRegistersAsOperands := by
  intro bw mode s x value
  have const {op : Operand} (h : ∃ v, constOf op = some v) (u u' : State) : value op u = value op u' := by
    obtain ⟨v, hv⟩ := h
    simp only [value, resolveSrc_const hv, readLoc]
  have sr : value ⟨2, .register⟩ s = s.sr &&& mask bw := by
    simp only [value, resolveSrc_register (r := 2) (by decide), readLoc]
  refine ⟨State.reg_setReg_same .., const (constOf_cg2 mode) _ _, sr, fun h => const (constOf_sr h) _ _, ?_⟩
  exact congrArg (· &&& mask bw) (State.reg_setReg_same s 3 x)

end Sys2Proof.Machine
end

section
/-! Power-up, `init` and the image, against spec/20_memory.md R73 and spec/70_reset_and_hazards.md R300 to R303. -/

namespace Sys2Proof.Machine

theorem pc_init (s : State) (sp : Word) : (s.init sp).pc = s.mem.readWord Config.resetVector := by
  have reg (r : Reg) : (s.init sp).reg r = ((s.setPc (s.mem.readWord Config.resetVector)).setSp sp).reg r := rfl
  simp [reg]

theorem sp_init (s : State) (sp : Word) : (s.init sp).sp = sp :=
  State.reg_setReg_same ..

theorem reg_init_ne {r : Reg} (hp : r ≠ Reg.pc) (hs : r ≠ Reg.sp) (s : State) (sp : Word) :
    (s.init sp).reg r = s.reg r :=
  (State.reg_setReg_ne _ _ _ _ hs).trans (State.reg_setReg_ne _ _ _ _ hp)

/-- Settles O55: the vector's word is read from its two bytes. -/
theorem initLoadsPcAndSp : Obligations.InitLoadsPcAndSp := by
  intro s sp
  have pc := (congrArg BitVec.toNat (pc_init s sp)).trans (s.mem.toNat_readWord Config.resetVector)
  exact ⟨pc, sp_init s sp, s.run_init sp, s.mem_init sp, fun _ hp hs => reg_init_ne hp hs s sp⟩

/-- Settles O56: the sixteen registers and the empty memory are those of the reset state. -/
theorem resetIsPowerUpThenInit : Obligations.ResetIsPowerUpThenInit :=
  ⟨by decide, fun _ => rfl, rfl, by decide⟩

namespace Memory

/-- The address after the first of several bytes that fit below the top does not wrap. -/
theorem toNat_next_of_fits {a : Word} {b : Byte} {bs : List Byte} (h : a.toNat + (b :: bs).length ≤ 65536) :
    bs = [] ∨ (next a).toNat = a.toNat + 1 ∧ (next a).toNat + bs.length ≤ 65536 := by
  rw [toNat_next]
  cases bs with
  | nil => exact .inl rfl
  | cons c bs =>
    simp only [List.length_cons] at *
    omega

theorem read_writeBytes_of_lt {m : Memory} {a : Word} {bs : List Byte} (h : a.toNat + bs.length ≤ 65536) {x : Nat}
    (hx : x < a.toNat) : (m.writeBytes a bs).read x = m.read x := by
  induction bs generalizing m a with
  | nil => rfl
  | cons b bs ih =>
    have first : (m.writeByte a b).read x = m.read x := read_write_ne (Nat.ne_of_lt hx)
    rcases toNat_next_of_fits h with rfl | ⟨next_eq, fits⟩
    · exact first
    · exact (ih fits (by omega)).trans first

theorem read_writeBytes_at {m : Memory} {a : Word} {bs : List Byte} (hm : m.wf = true)
    (h : a.toNat + bs.length ≤ 65536) {i : Nat} {b : Byte} (hi : bs[i]? = some b) :
    (m.writeBytes a bs).read (a.toNat + i) = b := by
  induction bs generalizing m a i with
  | nil => simp at hi
  | cons c bs ih =>
    have first : (m.writeByte a c).read a.toNat = c := read_write_same hm
    cases i with
    | zero =>
      obtain rfl : c = b := by simpa using hi
      rcases toNat_next_of_fits h with rfl | ⟨next_eq, fits⟩
      · exact first
      · exact (read_writeBytes_of_lt fits (by omega)).trans first
    | succ i =>
      rcases toNat_next_of_fits h with rfl | ⟨next_eq, fits⟩
      · simp at hi
      · rw [show a.toNat + (i + 1) = (next a).toNat + i by omega]
        exact ih (wf_writeByte hm) fits (by simpa using hi)

end Memory

/-- Settles O57: the image's bytes stand from 65536 - L up, so its last two are those of the reset vector. -/
theorem imageIsTopAligned : Obligations.ImageIsTopAligned := by
  intro s image hm nonempty short
  let a := BitVec.ofNat 16 (Config.memSize - image.length)
  have start : a.toNat = 65536 - image.length := by
    simp only [a, BitVec.toNat_ofNat, Config.memSize]
    omega
  have fits : a.toNat + image.length ≤ 65536 := by omega
  let t : State := { s with mem := s.mem.writeBytes a image }
  have byte {i : Nat} {b : Byte} (hi : image[i]? = some b) : t.mem.read (65536 - image.length + i) = b := by
    rw [← start]
    exact Memory.read_writeBytes_at hm fits hi
  have loaded : s.loadImage image = .next t := by
    rw [State.loadImage, if_neg (by omega), if_neg (by rw [Config.memSize]; omega)]
  refine ⟨t, loaded, Memory.wf_writeBytes hm, fun _ _ => byte, fun x hx => ?_, fun _ => rfl, rfl, ?_⟩
  · exact Memory.read_writeBytes_of_lt fits (by omega)
  · intro sp lo hi hlo hhi two
    have low := byte hlo
    have high := byte hhi
    rw [show 65536 - image.length + (image.length - 2) = 65534 by omega] at low
    rw [show 65536 - image.length + (image.length - 1) = 65535 by omega] at high
    rw [pc_init, ← low, ← high]
    rfl

end Sys2Proof.Machine
end

section
/-! What the shared paths leave at the written location and in the flags (spec/40_operand_resolution.md R140 stages (f)
and (g); spec/10_state.md R32). -/

namespace Sys2Proof.Machine

open Sys2Proof.Safety

@[simp] theorem sr_resolveSrc (bw : Width) (op : Operand) (s : State) : (resolveSrc bw op s).st.sr = s.sr :=
  reg_resolveSrc Reg.sr_ne_pc (steps_ne_sr op)

@[simp] theorem flag_resolveSrc (bw : Width) (op : Operand) (s : State) (f : Flag) :
    (resolveSrc bw op s).st.flag f = s.flag f := by
  rw [State.flag, sr_resolveSrc, State.flag]

/-- A write-back to another location keeps the flags. -/
theorem flagsAre_commit {loc : Loc} (h : loc ≠ .reg Reg.sr) (bw : Width) (o : AluResult) (s : State) :
    flagsAre o.carry (o.result == 0#16) (signBit bw o.result) o.overflow (commit bw loc o s) := by
  have sr : (commit bw loc o s).sr = (writeFlags bw o s).sr := reg_writeLoc_ne h
  have flags := flagsAre_writeFlags bw o s
  simp only [flagsAre, State.flag, sr] at flags ⊢
  exact flags

/-- The path of RRC, RRA and SXT: the operand ends as the result at the width, and the flags are the result's. -/
theorem commitSingle_spec {s : State} (hm : s.mem.wf = true) (f : Bool → Word → AluResult) (bw : Width)
    (op : Operand) :
    let r := resolveSrc bw op s
    let o := f (s.flag .C) (readLoc bw r.loc r.st)
    holds bw r.loc (o.result &&& mask bw) (commitSingle f bw op s) ∧
    (r.loc ≠ .reg Reg.sr →
      flagsAre o.carry (o.result == 0#16) (signBit bw o.result) o.overflow (commitSingle f bw op s)) := by
  intro r o
  have path : commitSingle f bw op s = commit bw r.loc o r.st := by simp only [commitSingle, flag_resolveSrc, r, o]
  rw [path]
  exact ⟨holds_writeLoc (by simpa [r] using hm) bw r.loc o.result, fun h => flagsAre_commit h bw o r.st⟩

/-- The path of ADD, SUB, XOR and AND. -/
theorem commitTwo_spec {s : State} (hm : s.mem.wf = true) (f : Word → Word → AluResult) (bw : Width) (src : Operand)
    (dst : Dest) :
    let o := resolveTwo bw src dst s
    let a := f o.src (o.dst bw)
    holds bw o.loc (a.result &&& mask bw) (commitTwo f bw src dst s) ∧
    (o.loc ≠ .reg Reg.sr →
      flagsAre a.carry (a.result == 0#16) (signBit bw a.result) a.overflow (commitTwo f bw src dst s)) := by
  intro o a
  have wf : (writeFlags bw a o.st).mem.wf = true := by rwa [mem_writeFlags, mem_resolveTwo]
  exact ⟨holds_writeLoc wf bw o.loc a.result, fun h => flagsAre_commit h bw a o.st⟩

end Sys2Proof.Machine
end

section
/-! Words of a width as numbers: the sign, the two's complement value and the mask (spec/00_scope.md R7, R8). -/

namespace Sys2Proof.Machine

open Sys2Proof.Safety

variable {bw : Width} {v : Word}

theorem and_mask_of_lt (h : v.toNat < 2 ^ widthBits bw) : v &&& mask bw = v := by
  apply BitVec.eq_of_toNat_eq
  rw [toNat_and_mask, Nat.mod_eq_of_lt h]

theorem signBit_eq_decide (h : v.toNat < 2 ^ widthBits bw) :
    signBit bw v = decide (2 ^ (widthBits bw - 1) ≤ v.toNat) := by
  rw [signBit_eq, BitVec.getLsbD, Nat.testBit_eq_decide_div_mod_eq, decide_eq_decide]
  cases bw <;> simp only [widthBits] at * <;> omega

theorem and_msb (bw : Width) (v : Word) : v &&& msb bw = if signBit bw v then msb bw else 0#16 := by
  have power : msb bw = BitVec.twoPow 16 (widthBits bw - 1) := by cases bw <;> rfl
  rw [signBit_eq, power, BitVec.and_twoPow]

end Sys2Proof.Machine
end

section
/-! RRC, SWPB, RRA and SXT as arithmetic (spec/41_single_operand.md R171 to R174). -/

namespace Sys2Proof.Machine

open Sys2Proof.Safety

section
variable {bw : Width} {v : Word} (c : Bool) (h : v.toNat < 2 ^ widthBits bw)
include h

/-- The carry enters above the halved value (R171). -/
theorem toNat_rrcResult : (rrcResult bw c v).result.toNat = v.toNat / 2 + if c then 2 ^ (widthBits bw - 1) else 0 := by
  have top : ((BitVec.ofBool c).setWidth 16 <<< (widthBits bw - 1)).toNat = c.toNat <<< (widthBits bw - 1) := by
    cases bw <;> cases c <;> rfl
  have low : v.toNat / 2 < 2 ^ (widthBits bw - 1) := by
    cases bw <;> simp only [widthBits] at * <;> omega
  rw [rrcResult, BitVec.toNat_or, top, BitVec.toNat_ushiftRight, Nat.shiftRight_eq_div_pow, Nat.pow_one,
    ← Nat.shiftLeft_add_eq_or_of_lt low, Nat.shiftLeft_eq]
  cases c <;> simp [Nat.add_comm]

theorem toNat_rrcResult_lt : (rrcResult bw c v).result.toNat < 2 ^ widthBits bw := by
  rw [toNat_rrcResult c h]
  cases bw <;> simp only [widthBits] at * <;> split <;> omega

theorem signBit_rrcResult : signBit bw (rrcResult bw c v).result = c := by
  rw [signBit_eq_decide (toNat_rrcResult_lt c h), toNat_rrcResult c h]
  cases bw <;> cases c <;> simp [widthBits] at * <;> omega

end

/-- The halves change places (R172). -/
theorem toNat_swpbFn (v : Word) : (swpbFn v).toNat = v.toNat % 256 * 256 + v.toNat / 256 := by
  have high : (v <<< 8).toNat = (v.toNat % 256) <<< 8 := by
    rw [BitVec.toNat_shiftLeft, Nat.shiftLeft_eq, Nat.shiftLeft_eq]
    omega
  have low : v.toNat / 256 < 2 ^ 8 := by omega
  rw [swpbFn, BitVec.toNat_or, high, BitVec.toNat_ushiftRight, Nat.shiftRight_eq_div_pow,
    ← Nat.shiftLeft_add_eq_or_of_lt low, Nat.shiftLeft_eq]

/-- RRA is RRC with the sign for the carry (R173). -/
theorem rraResult_result (bw : Width) (c : Bool) (v : Word) :
    (rraResult bw c v).result = (rrcResult bw (signBit bw v) v).result := by
  rw [rraResult, rrcResult, and_msb]
  cases bw <;> cases signBit _ v <;> rfl

/-- Bit 7 fills the high byte (R174). -/
theorem toNat_sxtResult (v : Word) :
    (sxtResult v).result.toNat = v.toNat % 256 + if 128 ≤ v.toNat % 256 then 0xFF00 else 0 := by
  have low : (v.extractLsb' 0 8).toNat = v.toNat % 256 := by
    rw [BitVec.extractLsb'_toNat, Nat.shiftRight_zero]
  rw [sxtResult, BitVec.toNat_signExtend, BitVec.toNat_setWidth_of_le (by decide), BitVec.msb_eq_decide, low]
  simp
end Sys2Proof.Machine
end

section
/-! RRC, SWPB, RRA and SXT, against spec/41_single_operand.md R171 to R174. -/

namespace Sys2Proof.Machine

open Sys2Proof.Safety

/-- Settles O15: the result is the halved operand under the old carry, which is its sign. -/
theorem rrcRotatesThroughCarry : Obligations.RrcRotatesThroughCarry := by
  intro bw op s hm r v res
  have fits : v.toNat < 2 ^ widthBits bw := toNat_readLoc_lt bw r.loc r.st
  have value : (rrcResult bw (s.flag .C) v).result = res := by
    simp only [res, ← toNat_rrcResult _ fits, BitVec.ofNat_toNat, BitVec.setWidth_eq]
  obtain ⟨written, flags⟩ := commitSingle_spec hm (rrcResult bw) bw op
  rw [and_mask_of_lt (toNat_rrcResult_lt _ fits), value] at written
  rw [signBit_rrcResult _ fits, value] at flags
  exact ⟨singleWord_and_top 0#3 bw op, _, exec_rrc bw op s, written, flags⟩

/-- Settles O16: the exchange, reduced to the width, which in byte mode leaves the high byte's 0. -/
theorem swpbExchangesBytes : Obligations.SwpbExchangesBytes := by
  intro bw op s hm r v res
  have fits : v.toNat < 2 ^ widthBits bw := toNat_readLoc_lt bw r.loc r.st
  have wf : r.st.mem.wf = true := by rwa [mem_resolveSrc]
  have value : swpbFn v &&& mask bw = res := by
    apply BitVec.eq_of_toNat_eq
    rw [toNat_and_mask, toNat_swpbFn]
    cases bw with
    | word => rfl
    | byte =>
      have high : v.toNat / 256 = 0 := Nat.div_eq_of_lt fits
      rw [high, Nat.add_zero]
      exact Nat.mul_mod_left _ 256
  have written := holds_writeLoc wf bw r.loc (swpbFn v)
  rw [value] at written
  exact ⟨singleWord_and_top 1#3 bw op, _, exec_swpb bw op s, written,
    fun h => (reg_writeLoc_ne h).trans (sr_resolveSrc bw op s)⟩

/-- The halved value under its own sign is half the signed value, rounded down. -/
theorem signed_rrcResult_signBit {bw : Width} {v : Word} (h : v.toNat < 2 ^ widthBits bw) :
    signed bw (rrcResult bw (signBit bw v) v).result = signed bw v / 2 := by
  rw [signed, signed, toNat_rrcResult _ h, signBit_eq_decide h]
  by_cases negative : 2 ^ (widthBits bw - 1) ≤ v.toNat
  · simp only [negative, decide_true, if_true, if_neg (Nat.not_lt.mpr negative)]
    cases bw <;> simp only [widthBits] at * <;> omega
  · simp only [negative, decide_false, Bool.false_eq_true, if_false, if_pos (Nat.not_le.mp negative)]
    cases bw <;> simp only [widthBits] at * <;> omega

/-- Settles O17: the sign enters above the halved operand. -/
theorem rraHalvesSigned : Obligations.RraHalvesSigned := by
  intro bw op s hm r v
  have fits : v.toNat < 2 ^ widthBits bw := toNat_readLoc_lt bw r.loc r.st
  obtain ⟨written, flags⟩ := commitSingle_spec hm (rraResult bw) bw op
  rw [rraResult_result, and_mask_of_lt (toNat_rrcResult_lt _ fits)] at written
  rw [rraResult_result, signBit_rrcResult _ fits] at flags
  rw [← signBit_eq]
  exact ⟨singleWord_and_top 2#3 bw op, _, _, exec_rra bw op s, written, toNat_rrcResult_lt _ fits,
    signed_rrcResult_signBit fits, flags⟩

/-- Settles O18: the low byte with bit 7 above it, reduced to the width. -/
theorem sxtExtendsTheSign : Obligations.SxtExtendsTheSign := by
  intro bw op s hm r v low res
  have value : (sxtResult v).result &&& mask bw = res := by
    apply BitVec.eq_of_toNat_eq
    rw [toNat_and_mask, toNat_sxtResult]
    cases bw <;> simp only [res, low, widthBits, reduceCtorEq, true_and, false_and, if_false, BitVec.toNat_ofNat]
    all_goals split <;> omega
  have zero : ((sxtResult v).result == 0#16) = decide (low = 0) := by
    rw [beq_zero_eq_decide, decide_eq_decide, ← BitVec.toNat_inj, toNat_sxtResult, BitVec.toNat_ofNat]
    split <;> omega
  have carry : (sxtResult v).carry = decide (low ≠ 0) := by
    rw [decide_not, ← zero]
    rfl
  have sign : signBit bw (sxtResult v).result = v.getLsbD 7 := by
    simp only [signBit_eq, BitVec.getLsbD, Nat.testBit_eq_decide_div_mod_eq, decide_eq_decide, toNat_sxtResult]
    cases bw <;> simp only [widthBits] <;> split <;> omega
  obtain ⟨written, flags⟩ := commitSingle_spec hm (fun _ => sxtResult) bw op
  rw [value] at written
  rw [carry, zero, sign] at flags
  exact ⟨singleWord_and_top 3#3 bw op, _, exec_sxt bw op s, written, flags⟩

end Sys2Proof.Machine
end

section
/-! ADD, SUB and CMP as arithmetic (spec/42_two_operand.md R202, R205, R206): the sum of the path, its carry and its
overflow as facts about numbers. -/

namespace Sys2Proof.Machine

open Sys2Proof.Safety

section
variable {bw : Width} {v : Word}

theorem signed_of_lt (h : v.toNat < 2 ^ (widthBits bw - 1)) : signed bw v = v.toNat :=
  if_pos h

theorem signed_of_le (h : 2 ^ (widthBits bw - 1) ≤ v.toNat) : signed bw v = v.toNat - 2 ^ widthBits bw :=
  if_neg (Nat.not_lt.mpr h)

/-- A two's complement value is the number below the sign bit's weight, and 2^W less from there on. -/
theorem signed_cases (bw : Width) (v : Word) :
    (v.toNat < 2 ^ (widthBits bw - 1) ∧ signed bw v = v.toNat) ∨
    (2 ^ (widthBits bw - 1) ≤ v.toNat ∧ signed bw v = v.toNat - 2 ^ widthBits bw) :=
  (Nat.lt_or_ge v.toNat _).imp (fun h => ⟨h, signed_of_lt h⟩) (fun h => ⟨h, signed_of_le h⟩)

/-- A W-bit two's complement value is in range (R215). -/
theorem signed_range (h : v.toNat < 2 ^ widthBits bw) :
    -2 ^ (widthBits bw - 1) ≤ signed bw v ∧ signed bw v < 2 ^ (widthBits bw - 1) := by
  rcases signed_cases bw v with ⟨range, value⟩ | ⟨range, value⟩
  all_goals
    rw [value]
    cases bw <;> simp only [widthBits] at * <;> omega

/-- The sign bit is the sign of the two's complement value. -/
theorem signBit_eq_decide_signed (h : v.toNat < 2 ^ widthBits bw) : signBit bw v = decide (signed bw v < 0) := by
  rw [signBit_eq_decide h, decide_eq_decide]
  rcases signed_cases bw v with ⟨range, value⟩ | ⟨range, value⟩
  all_goals
    rw [value]
    cases bw <;> simp only [widthBits] at * <;> omega

end

section
variable {bw : Width} {a d : Word} {c : Nat} (ha : a.toNat < 2 ^ widthBits bw) (hd : d.toNat < 2 ^ widthBits bw)
  (hc : c ≤ 1)

theorem toNat_sumResult (bw : Width) (a d : Word) (c : Nat) :
    (sumResult bw a d c).result.toNat = (a.toNat + d.toNat + c) % 2 ^ widthBits bw := by
  rw [sumResult, toNat_and_mask, BitVec.toNat_ofNat]
  cases bw <;> simp only [widthBits] <;> omega

theorem toNat_sumResult_lt (bw : Width) (a d : Word) (c : Nat) :
    (sumResult bw a d c).result.toNat < 2 ^ widthBits bw := by
  rw [toNat_sumResult]
  exact Nat.mod_lt _ (Nat.two_pow_pos _)

theorem carry_sumResult (bw : Width) (a d : Word) (c : Nat) :
    (sumResult bw a d c).carry = decide (2 ^ widthBits bw ≤ a.toNat + d.toNat + c) := by
  cases bw <;> rfl

theorem and_msb_beq (bw : Width) (v w : Word) :
    ((v &&& msb bw) == (w &&& msb bw)) = (signBit bw v == signBit bw w) := by
  rw [and_msb, and_msb]
  cases bw <;> cases signBit _ v <;> cases signBit _ w <;> rfl

theorem overflow_sumResult_eq (bw : Width) (a d : Word) (c : Nat) :
    (sumResult bw a d c).overflow =
      (signBit bw a == signBit bw d && signBit bw (sumResult bw a d c).result != signBit bw d) := by
  rw [bne, ← and_msb_beq, ← and_msb_beq]
  rfl

include ha hd hc

/-- The result's two's complement value is the exact signed sum, moved by 2^W or not at all. -/
theorem signed_sumResult :
    let t := signed bw a + signed bw d + c
    let r := signed bw (sumResult bw a d c).result
    r = t ∨ r = t + 2 ^ widthBits bw ∨ r = t - 2 ^ widthBits bw := by
  have sum := toNat_sumResult bw a d c
  rcases signed_cases bw a with ⟨rangeA, valueA⟩ | ⟨rangeA, valueA⟩
  all_goals rcases signed_cases bw d with ⟨rangeD, valueD⟩ | ⟨rangeD, valueD⟩
  all_goals rcases signed_cases bw (sumResult bw a d c).result with ⟨rangeR, valueR⟩ | ⟨rangeR, valueR⟩
  all_goals
    rw [valueA, valueD, valueR]
    cases bw <;> simp only [widthBits] at * <;> omega

theorem overflow_sumResult : (sumResult bw a d c).overflow = outOfRange bw (signed bw a + signed bw d + c) := by
  rw [overflow_sumResult_eq, signBit_eq_decide_signed ha, signBit_eq_decide_signed hd,
    signBit_eq_decide_signed (toNat_sumResult_lt ..)]
  have rangeA := signed_range ha
  have rangeD := signed_range hd
  have rangeR := signed_range (toNat_sumResult_lt bw a d c)
  have moved := signed_sumResult ha hd hc
  rw [Bool.eq_iff_iff]
  simp only [Bool.and_eq_true, beq_iff_eq, bne_iff_ne, decide_eq_decide, ne_eq, outOfRange, Bool.or_eq_true,
    decide_eq_true_eq]
  cases bw <;> simp only [widthBits] at * <;> omega

/-- N xor V is the sign of the exact signed sum. -/
theorem signBit_xor_overflow_sumResult :
    (signBit bw (sumResult bw a d c).result ^^ (sumResult bw a d c).overflow) =
      decide (signed bw a + signed bw d + c < 0) := by
  rw [overflow_sumResult ha hd hc, signBit_eq_decide_signed (toNat_sumResult_lt ..)]
  have rangeA := signed_range ha
  have rangeD := signed_range hd
  have rangeR := signed_range (toNat_sumResult_lt bw a d c)
  have moved := signed_sumResult ha hd hc
  have differ (p q : Bool) : (p ^^ q) = true ↔ p ≠ q := bne_iff_ne
  rw [Bool.eq_iff_iff, differ, ne_eq, Bool.eq_iff_iff]
  simp only [outOfRange, Bool.or_eq_true, decide_eq_true_eq]
  cases bw <;> simp only [widthBits] at * <;> omega

end

section
variable {bw : Width} (a d : Word)

theorem toNat_addResult : (addResult bw a d).result.toNat = (a.toNat + d.toNat) % 2 ^ widthBits bw :=
  toNat_sumResult bw a d 0

theorem carry_addResult : (addResult bw a d).carry = decide (2 ^ widthBits bw ≤ a.toNat + d.toNat) :=
  carry_sumResult bw a d 0

variable {a d} in
theorem overflow_addResult (ha : a.toNat < 2 ^ widthBits bw) (hd : d.toNat < 2 ^ widthBits bw) :
    (addResult bw a d).overflow = outOfRange bw (signed bw a + signed bw d) :=
  (overflow_sumResult ha hd (Nat.zero_le 1)).trans (congrArg _ (Int.add_zero _))

end

section
variable {bw : Width} {v d : Word} (hv : v.toNat < 2 ^ widthBits bw) (hd : d.toNat < 2 ^ widthBits bw)
include hv

theorem toNat_not_and_mask : (~~~v &&& mask bw).toNat = 2 ^ widthBits bw - 1 - v.toNat := by
  rw [toNat_and_mask, BitVec.toNat_not]
  cases bw <;> simp only [widthBits] at * <;> omega

theorem toNat_not_and_mask_lt : (~~~v &&& mask bw).toNat < 2 ^ widthBits bw := by
  rw [toNat_not_and_mask hv]
  have := Nat.two_pow_pos (widthBits bw)
  omega

/-- The one's complement is the signed complement. -/
theorem signed_not_and_mask : signed bw (~~~v &&& mask bw) = -1 - signed bw v := by
  have complement := toNat_not_and_mask hv
  rcases signed_cases bw v with ⟨rangeV, valueV⟩ | ⟨rangeV, valueV⟩
  all_goals rcases signed_cases bw (~~~v &&& mask bw) with ⟨rangeC, valueC⟩ | ⟨rangeC, valueC⟩
  all_goals
    rw [valueV, valueC]
    cases bw <;> simp only [widthBits] at * <;> omega

theorem toNat_subResult :
    (subResult bw v d).result.toNat = (d.toNat + 2 ^ widthBits bw - v.toNat) % 2 ^ widthBits bw := by
  rw [subResult, toNat_sumResult, toNat_not_and_mask hv]
  congr 1
  omega

theorem carry_subResult : (subResult bw v d).carry = decide (v.toNat ≤ d.toNat) := by
  rw [subResult, carry_sumResult, toNat_not_and_mask hv, decide_eq_decide]
  omega

include hd

theorem overflow_subResult : (subResult bw v d).overflow = outOfRange bw (signed bw d - signed bw v) := by
  rw [subResult, overflow_sumResult (toNat_not_and_mask_lt hv) hd (Nat.le_refl 1), signed_not_and_mask hv]
  congr 1
  omega

theorem signBit_xor_overflow_subResult :
    (signBit bw (subResult bw v d).result ^^ (subResult bw v d).overflow) = decide (signed bw d < signed bw v) := by
  rw [subResult, signBit_xor_overflow_sumResult (toNat_not_and_mask_lt hv) hd (Nat.le_refl 1), signed_not_and_mask hv,
    decide_eq_decide]
  omega

theorem subResult_eq_zero_iff : (subResult bw v d).result = 0#16 ↔ d = v := by
  rw [← BitVec.toNat_inj, ← BitVec.toNat_inj, toNat_subResult hv, BitVec.toNat_ofNat]
  cases bw <;> simp only [widthBits] at * <;> omega

end

end Sys2Proof.Machine
end

section
/-! The two-operand instructions that compute, against spec/42_two_operand.md R201 to R212. -/

namespace Sys2Proof.Machine

open Sys2Proof.Safety

variable {bw : Width}

theorem toNat_src_lt (bw : Width) (src : Operand) (dst : Dest) (s : State) :
    (resolveTwo bw src dst s).src.toNat < 2 ^ widthBits bw :=
  toNat_readLoc_lt ..

theorem toNat_dst_lt (bw : Width) (o : TwoOperands) : (o.dst bw).toNat < 2 ^ widthBits bw :=
  toNat_readLoc_lt ..

theorem bne_zero_eq_decide (v : Word) : (v != 0#16) = decide (v ≠ 0#16) := by
  rw [Bool.eq_iff_iff, bne_iff_ne, decide_eq_true_iff]

/-- Settles O21: the source's value, which fits the width, is written back without flags. -/
theorem movCopies : Obligations.MovCopies := by
  intro bw src dst s hm o
  obtain ⟨written, sr, -⟩ := writeLoc_resolveTwo bw src dst s hm o.src
  rw [and_mask_of_lt (toNat_src_lt bw src dst s)] at written
  exact ⟨twoWord_and_top 4#4 bw src dst, _, exec_mov bw src dst s, written, sr⟩

/-- Settles O26: the `or` of two values of the width fits the width. -/
theorem bisSetsBits : Obligations.BisSetsBits := by
  intro bw src dst s hm o
  have fits : (o.dst bw ||| o.src).toNat < 2 ^ widthBits bw :=
    Nat.or_lt_two_pow (toNat_dst_lt bw o) (toNat_src_lt bw src dst s)
  have value : bisResult bw o.src (o.dst bw) &&& mask bw = o.dst bw ||| o.src := by
    rw [bisResult, and_mask_and_mask, and_mask_of_lt fits]
  have written := writeLoc_resolveTwo bw src dst s hm (bisResult bw o.src (o.dst bw))
  rw [value] at written
  exact ⟨twoWord_and_top 13#4 bw src dst, _, exec_bis bw src dst s, written⟩

/-- What an instruction of the path of ADD leaves, once its result is known to fit the width. -/
theorem commitTwo_of_fits {s : State} (hm : s.mem.wf = true) {f : Word → Word → AluResult} (src : Operand)
    (dst : Dest) {res : Word} (fits : res.toNat < 2 ^ widthBits bw)
    (hr : (f (resolveTwo bw src dst s).src ((resolveTwo bw src dst s).dst bw)).result = res) :
    let o := resolveTwo bw src dst s
    let a := f o.src (o.dst bw)
    holds bw o.loc res (commitTwo f bw src dst s) ∧
    (o.loc ≠ .reg Reg.sr →
      flagsAre a.carry (decide (res = 0#16)) (decide (2 ^ (widthBits bw - 1) ≤ res.toNat)) a.overflow
        (commitTwo f bw src dst s)) := by
  intro o a
  obtain ⟨written, flags⟩ := commitTwo_spec hm f bw src dst
  rw [hr, and_mask_of_lt fits] at written
  rw [hr, signBit_eq_decide fits] at flags
  exact ⟨written, flags⟩

/-- The same with the result as a number. -/
theorem commitTwo_of_toNat {s : State} (hm : s.mem.wf = true) {f : Word → Word → AluResult} (src : Operand)
    (dst : Dest) {n : Nat} (fits : n < 2 ^ widthBits bw)
    (hr : (f (resolveTwo bw src dst s).src ((resolveTwo bw src dst s).dst bw)).result.toNat = n) :
    let o := resolveTwo bw src dst s
    let a := f o.src (o.dst bw)
    holds bw o.loc (BitVec.ofNat 16 n) (commitTwo f bw src dst s) ∧
    (o.loc ≠ .reg Reg.sr →
      flagsAre a.carry (decide (n = 0)) (decide (2 ^ (widthBits bw - 1) ≤ n)) a.overflow
        (commitTwo f bw src dst s)) := by
  subst hr
  obtain ⟨written, flags⟩ := commitTwo_of_fits hm src dst fits rfl
  simp only [← BitVec.toNat_inj, BitVec.toNat_ofNat, Nat.zero_mod] at flags
  rw [BitVec.ofNat_toNat, BitVec.setWidth_eq]
  exact ⟨written, flags⟩

/-- Settles O27: the `xor` of two values of the width fits the width, and a masked sign bit is the sign. -/
theorem xorAndItsFlags : Obligations.XorAndItsFlags := by
  intro bw src dst s hm o d res
  have fits : res.toNat < 2 ^ widthBits bw := Nat.xor_lt_two_pow (toNat_dst_lt bw o) (toNat_src_lt bw src dst s)
  have value : (xorResult bw o.src d).result = res := and_mask_of_lt fits
  have carry : (xorResult bw o.src d).carry = decide (res ≠ 0#16) := by
    rw [← value]
    exact bne_zero_eq_decide _
  have negative {v : Word} (h : v.toNat < 2 ^ widthBits bw) : ((v &&& msb bw) != 0#16) = decide (signed bw v < 0) := by
    rw [and_msb, ← signBit_eq_decide_signed h]
    cases bw <;> cases signBit _ v <;> rfl
  have overflow : (xorResult bw o.src d).overflow = (decide (signed bw o.src < 0) && decide (signed bw d < 0)) := by
    rw [← negative (toNat_src_lt bw src dst s), ← negative (toNat_dst_lt bw o)]
    rfl
  obtain ⟨written, flags⟩ := commitTwo_of_fits hm src dst fits value
  rw [carry, overflow] at flags
  exact ⟨twoWord_and_top 14#4 bw src dst, _, exec_xor bw src dst s, written, flags⟩

/-- Settles O28: the `and` with a value of the width fits the width. -/
theorem andAndItsFlags : Obligations.AndAndItsFlags := by
  intro bw src dst s hm o d res
  have fits : res.toNat < 2 ^ widthBits bw := Nat.and_lt_two_pow _ (toNat_src_lt bw src dst s)
  have value : (andResult bw o.src d).result = res := and_mask_of_lt fits
  have carry : (andResult bw o.src d).carry = decide (res ≠ 0#16) := by
    rw [← value]
    exact bne_zero_eq_decide _
  obtain ⟨written, flags⟩ := commitTwo_of_fits hm src dst fits value
  rw [carry] at flags
  exact ⟨twoWord_and_top 15#4 bw src dst, _, exec_and bw src dst s, written, flags⟩

/-- Settles O22: the path's sum without a carry in, its carry and its overflow. -/
theorem addSumsAndSetsFlags : Obligations.AddSumsAndSetsFlags := by
  intro bw src dst s hm o d res
  have hs : o.src.toNat < 2 ^ widthBits bw := toNat_src_lt bw src dst s
  have hd : d.toNat < 2 ^ widthBits bw := toNat_dst_lt bw o
  have fits : res < 2 ^ widthBits bw := Nat.mod_lt _ (Nat.two_pow_pos _)
  obtain ⟨written, flags⟩ := commitTwo_of_toNat hm src dst fits (toNat_addResult o.src d)
  rw [carry_addResult, overflow_addResult hs hd] at flags
  exact ⟨twoWord_and_top 5#4 bw src dst, _, exec_add bw src dst s, written, flags⟩

/-- Settles O23: the path of ADD with the source's one's complement and a carry in. -/
theorem subSubtractsAndSetsFlags : Obligations.SubSubtractsAndSetsFlags := by
  intro bw src dst s hm o d res
  have hs : o.src.toNat < 2 ^ widthBits bw := toNat_src_lt bw src dst s
  have hd : d.toNat < 2 ^ widthBits bw := toNat_dst_lt bw o
  have fits : res < 2 ^ widthBits bw := Nat.mod_lt _ (Nat.two_pow_pos _)
  obtain ⟨written, flags⟩ := commitTwo_of_toNat hm src dst fits (toNat_subResult (d := d) hs)
  rw [carry_subResult hs, overflow_subResult hs hd] at flags
  exact ⟨twoWord_and_top 8#4 bw src dst, _, exec_sub bw src dst s, written, flags⟩

end Sys2Proof.Machine
end

section
/-! CMP and the jumps after it, against spec/42_two_operand.md R206 and spec/43_jump.md R242 to R247. -/

namespace Sys2Proof.Machine

open Sys2Proof.Safety

/-- Settles O24: the flags are those of the difference, and the four jumps test them. -/
theorem compareThenJump : Obligations.CompareThenJump := by
  intro bw src dst s o d
  have hs : o.src.toNat < 2 ^ widthBits bw := toNat_src_lt bw src dst s
  have hd : d.toNat < 2 ^ widthBits bw := toNat_dst_lt bw o
  let t := flagsTwo (subResult bw) bw src dst s
  obtain ⟨c, z, n, v⟩ : flagsAre _ _ _ _ t := flagsAre_writeFlags bw (subResult bw o.src d) o.st
  have carry : t.flag .C = decide (o.src.toNat ≤ d.toNat) := c.trans (carry_subResult hs)
  have zero : t.flag .Z = decide (d = o.src) := by
    rw [z, beq_zero_eq_decide, decide_eq_decide, subResult_eq_zero_iff hs hd]
  have less : (t.flag .N ^^ t.flag .V) = decide (signed bw d < signed bw o.src) := by
    rw [n, v, signBit_xor_overflow_subResult hs hd]
  have overflow : t.flag .V = outOfRange bw (signed bw d - signed bw o.src) := v.trans (overflow_subResult hs hd)
  refine ⟨twoWord_and_top 9#4 bw src dst, t, exec_cmp bw src dst s, zero, carry, less, overflow, fun off => ?_⟩
  have jl := jumpIf_eq_ite (taken := t.flag .N ^^ t.flag .V) (p := signed bw d < signed bw o.src) (by simp [less]) off t
  have jge := jumpIf_eq_ite (taken := !(t.flag .N ^^ t.flag .V)) (p := signed bw o.src ≤ signed bw d)
    (by simp [less]) off t
  have jeq := jumpIf_eq_ite (taken := t.flag .Z) (p := d = o.src) (by simp [zero]) off t
  have jc := jumpIf_eq_ite (taken := t.flag .C) (p := o.src.toNat ≤ d.toNat) (by simp [carry]) off t
  exact ⟨congrArg _ jl, congrArg _ jge, congrArg _ jeq, congrArg _ jc⟩

end Sys2Proof.Machine
end

section
/-! Frames: what the shared paths leave unchanged, and the register an operand steps (spec/40_operand_resolution.md
sections 2 and 5). -/

namespace Sys2Proof.Machine

open Sys2Proof.Safety

/-- A stepping operand is memory at the register (R146). -/
theorem resolveSrc_loc_of_steps {op : Operand} {r : Reg} (hs : steps op = some r) (bw : Width) (s : State) :
    (resolveSrc bw op s).loc = .mem (s.reg r) := by
  obtain ⟨i, m⟩ := op
  simp only [steps, Option.ite_none_right_eq_some, Option.some.injEq] at hs
  obtain ⟨⟨rfl, -, h2, h3⟩, rfl⟩ := hs
  rw [resolveSrc_autoinc h2 h3]

theorem steps_ne_sr_of_eq {op : Operand} {r : Reg} (hs : steps op = some r) : r ≠ Reg.sr := by
  rintro rfl
  exact steps_ne_sr op hs

/-- A write-back to another location leaves SR's other bits alone, whatever flags it comes after. -/
theorem otherBits_commit {loc : Loc} (h : loc ≠ .reg Reg.sr) (bw : Width) (o : AluResult) (s : State) :
    otherBits (commit bw loc o s).sr = otherBits s.sr := by
  have sr : (commit bw loc o s).sr = (writeFlags bw o s).sr := reg_writeLoc_ne h
  rw [sr, otherBits_writeFlags]

theorem commitSingle_frame (f : Bool → Word → AluResult) (bw : Width) (op : Operand) (s : State) :
    let loc := (resolveSrc bw op s).loc
    let t := commitSingle f bw op s
    (∀ r, r ≠ Reg.pc → r ≠ Reg.sr → steps op ≠ some r → loc ≠ .reg r → t.reg r = s.reg r) ∧
    (∀ r, steps op = some r → t.reg r = s.reg r + if bw = .word then 2#16 else 1#16) ∧
    (loc ≠ .reg Reg.sr → otherBits t.sr = otherBits s.sr) ∧
    (∀ x, x ∉ storedBytes bw loc → t.mem.read x = s.mem.read x) ∧ t.run = s.run := by
  intro loc t
  refine ⟨fun r hp hsr hs hl => ?_, fun r hs => ?_, fun hl => ?_, fun x hx => ?_, ?_⟩
  · exact (reg_commit_ne hl hsr).trans (reg_resolveSrc hp hs)
  · have hl : loc ≠ .reg r := by simp [loc, resolveSrc_loc_of_steps hs]
    exact (reg_commit_ne hl (steps_ne_sr_of_eq hs)).trans (reg_resolveSrc_steps hs)
  · exact (otherBits_commit hl bw _ _).trans (congrArg otherBits (sr_resolveSrc bw op s))
  · exact (read_commit_ne hx).trans (congrArg (·.read x) (mem_resolveSrc bw op s))
  · exact (run_commit ..).trans (run_resolveSrc bw op s)

/-- Settles O29: the three instructions share one path. -/
theorem rotateAndExtendFrame : Obligations.RotateAndExtendFrame := by
  intro bw op s t loc h
  obtain ⟨f, rfl⟩ : ∃ f, commitSingle f bw op s = t := by
    rcases h with h | h | h
    · exact ⟨_, exec_next_unique (exec_rrc bw op s) h⟩
    · exact ⟨_, exec_next_unique (exec_rra bw op s) h⟩
    · exact ⟨_, exec_next_unique (exec_sxt bw op s) h⟩
  exact commitSingle_frame f bw op s

/-- Settles O30: SWPB resolves its operand and writes it back. -/
theorem swpbFrame : Obligations.SwpbFrame := by
  intro bw op s t loc h
  obtain rfl := exec_next_unique (exec_swpb bw op s) h
  refine ⟨fun r hp hs hl => ?_, fun r hs => ?_, fun x hx => ?_, ?_⟩
  · exact (reg_writeLoc_ne hl).trans (reg_resolveSrc hp hs)
  · have hl : loc ≠ .reg r := by simp [loc, resolveSrc_loc_of_steps hs]
    exact (reg_writeLoc_ne hl).trans (reg_resolveSrc_steps hs)
  · exact (read_writeLoc_ne hx).trans (congrArg (·.read x) (mem_resolveSrc bw op s))
  · exact (run_writeLoc ..).trans (run_resolveSrc bw op s)

/-! ## PUSH and CALL -/

section
variable {bw : Width} {op : Operand} {s : State} {r : Reg}

theorem reg_resolveStackOperand (hp : r ≠ Reg.pc) (hsp : r ≠ Reg.sp) (hs : steps op ≠ some r) :
    (resolveStackOperand bw op s).st.reg r = s.reg r :=
  (reg_resolveSrc hp hs).trans (State.reg_setReg_ne _ _ _ _ hsp)

theorem reg_resolveStackOperand_steps (hs : steps op = some r) (hsp : r ≠ Reg.sp) :
    (resolveStackOperand bw op s).st.reg r = s.reg r + if bw = .word then 2#16 else 1#16 := by
  rw [resolveStackOperand, reg_resolveSrc_steps hs]
  rw [State.reg_setReg_ne _ _ _ _ hsp]

theorem Memory.read_store_ne {m : Memory} {a v : Word} {x : Nat} (h : x ∉ storedBytes bw (.mem a)) :
    (m.store bw a v).read x = m.read x := by
  cases bw with
  | word =>
    simp only [storedBytes, List.mem_cons, List.not_mem_nil, or_false, not_or] at h
    exact Memory.read_writeWord_ne h.1 h.2
  | byte =>
    simp only [storedBytes, List.mem_cons, List.not_mem_nil, or_false] at h
    exact Memory.read_write_ne h

end

/-- Settles O31: both store at SP as the operand's resolution leaves it; CALL then sets PC. -/
theorem stackFrame : Obligations.StackFrame := by
  intro bw op s t slot
  have mem (width : Width) (v : Word) {x : Nat} (hx : x ∉ storedBytes width slot) :
      ((resolveStackOperand bw op s).st.mem.store width (resolveStackOperand bw op s).st.sp v).read x = s.mem.read x :=
    (Memory.read_store_ne hx).trans (congrArg (·.read x) (mem_resolveStackOperand bw op s))
  constructor <;> intro h
  · obtain rfl := exec_next_unique (exec_push bw op s) h
    exact ⟨fun r hp hsp hs => reg_resolveStackOperand hp hsp hs, fun r hs hsp => reg_resolveStackOperand_steps hs hsp,
      fun x hx => mem bw _ hx, run_resolveStackOperand bw op s⟩
  · obtain rfl := exec_next_unique (exec_call bw op s) h
    exact ⟨fun r hp hsp hs => (State.reg_setReg_ne _ _ _ _ hp).trans (reg_resolveStackOperand hp hsp hs),
      fun r hs hsp => (State.reg_setReg_ne _ _ _ _ (steps_ne_pc hs)).trans (reg_resolveStackOperand_steps hs hsp),
      fun x hx => mem .word _ hx, run_resolveStackOperand bw op s⟩

/-! ## Two operands -/

/-- Settles O32: the four instructions share one path. -/
theorem arithmeticFrame : Obligations.ArithmeticFrame := by
  intro bw src dst s t loc h
  obtain ⟨f, rfl⟩ : ∃ f, commitTwo f bw src dst s = t := by
    rcases h with h | h | h | h
    · exact ⟨_, exec_next_unique (exec_add bw src dst s) h⟩
    · exact ⟨_, exec_next_unique (exec_sub bw src dst s) h⟩
    · exact ⟨_, exec_next_unique (exec_xor bw src dst s) h⟩
    · exact ⟨_, exec_next_unique (exec_and bw src dst s) h⟩
  refine ⟨fun r hp hsr hs hl => ?_, fun r hs hl => ?_, fun hl => ?_, fun x hx => ?_, ?_⟩
  · exact (reg_commit_ne hl hsr).trans (reg_resolveTwo hp hs)
  · exact (reg_commit_ne hl (steps_ne_sr_of_eq hs)).trans (reg_resolveTwo_steps hs)
  · exact (otherBits_commit hl bw _ _).trans (congrArg otherBits (sr_resolveTwo bw src dst s))
  · exact (read_commit_ne hx).trans (congrArg (·.read x) (mem_resolveTwo bw src dst s))
  · exact (run_commit ..).trans (run_resolveTwo bw src dst s)

/-- Settles O33: the three instructions share one path. -/
theorem moveFrame : Obligations.MoveFrame := by
  intro bw src dst s t loc h
  obtain ⟨f, rfl⟩ : ∃ f, writeTwo f bw src dst s = t := by
    rcases h with h | h | h
    · exact ⟨_, exec_next_unique (exec_mov bw src dst s) h⟩
    · exact ⟨_, exec_next_unique (exec_bic_eq_writeTwo bw src dst s) h⟩
    · exact ⟨_, exec_next_unique (exec_bis bw src dst s) h⟩
  refine ⟨fun r hp hs hl => ?_, fun r hs hl => ?_, fun x hx => ?_, ?_⟩
  · exact (reg_writeLoc_ne hl).trans (reg_resolveTwo hp hs)
  · exact (reg_writeLoc_ne hl).trans (reg_resolveTwo_steps hs)
  · exact (read_writeLoc_ne hx).trans (congrArg (·.read x) (mem_resolveTwo bw src dst s))
  · exact (run_writeLoc ..).trans (run_resolveTwo bw src dst s)

/-- Settles O34: CMP resolves its operands and writes the flags. -/
theorem compareFrame : Obligations.CompareFrame := by
  intro bw src dst s t h
  obtain rfl := exec_next_unique (exec_cmp bw src dst s) h
  refine ⟨fun r hp hsr hs => ?_, fun r hs => ?_, ?_, mem_resolveTwo bw src dst s, run_resolveTwo bw src dst s⟩
  · exact (reg_writeFlags_ne _ _ _ hsr).trans (reg_resolveTwo hp hs)
  · exact (reg_writeFlags_ne _ _ _ (steps_ne_sr_of_eq hs)).trans (reg_resolveTwo_steps hs)
  · exact (otherBits_writeFlags ..).trans (congrArg otherBits (sr_resolveTwo bw src dst s))

end Sys2Proof.Machine
end

section
/-! PC after an operand instruction, against spec/30_encoding.md R101. -/

namespace Sys2Proof.Machine

open Sys2Proof.Safety

theorem takesWord_of_const {op : Operand} {v : Word} (h : constOf op = some v) : op.takesWord = false := by
  obtain ⟨r, m⟩ := op
  rcases (isSome_constOf_iff ⟨r, m⟩).mp (by rw [h]; rfl) with ⟨e, -⟩ | e
  all_goals
    cases e
    cases m <;> rfl

/-- Resolving an operand moves PC past the extension word it takes, and by nothing else. -/
theorem pc_resolveSrc (bw : Width) (op : Operand) (s : State) :
    (resolveSrc bw op s).st.pc = s.pc + BitVec.ofNat 16 (2 * op.takesWord.toNat) := by
  obtain ⟨r, m⟩ := op
  cases hc : constOf ⟨r, m⟩ with
  | some v =>
    rw [resolveSrc_const hc, takesWord_of_const hc]
    exact (BitVec.add_zero _).symm
  | none =>
    have ne (h : m ≠ .register) : r ≠ Reg.sr ∧ r ≠ Reg.cg2 := by
      have notConst := mt (isSome_constOf_iff ⟨r, m⟩).mpr (by simp [hc])
      exact ⟨fun e => notConst (.inl ⟨e, h⟩), fun e => notConst (.inr e)⟩
    cases m with
    | register => simp [resolveSrc, hc, Operand.takesWord]
    | indexed =>
      obtain ⟨h2, h3⟩ := ne (by decide)
      simp [resolveSrc_indexed h2 h3, Operand.takesWord, h2, h3]
    | indirect => simp [resolveSrc, hc, Operand.takesWord]
    | autoinc =>
      obtain ⟨h2, h3⟩ := ne (by decide)
      by_cases hp : r = Reg.pc
      · subst hp
        simp [resolveSrc_autoinc h2 h3, Operand.takesWord]
      · simp [resolveSrc_autoinc h2 h3, Operand.takesWord, beq_false_of_ne hp, State.reg_setReg, hp]

theorem pc_resolveDst (dst : Dest) (s : State) :
    (resolveDst dst s).st.pc = s.pc + BitVec.ofNat 16 (2 * dst.takesWord.toNat) := by
  obtain ⟨r, m⟩ := dst
  cases m with
  | register => exact (BitVec.add_zero _).symm
  | memory => exact s.pc_advance

theorem pc_resolveTwo (bw : Width) (src : Operand) (dst : Dest) (s : State) :
    (resolveTwo bw src dst s).st.pc = s.pc + BitVec.ofNat 16 (2 * (src.takesWord.toNat + dst.takesWord.toNat)) := by
  rw [resolveTwo, pc_resolveDst, pc_resolveSrc, BitVec.add_assoc, Nat.mul_add, BitVec.ofNat_add]

theorem pc_resolveStackOperand (bw : Width) (op : Operand) (s : State) :
    (resolveStackOperand bw op s).st.pc = s.pc + BitVec.ofNat 16 (2 * op.takesWord.toNat) := by
  rw [resolveStackOperand, pc_resolveSrc]
  simp

theorem resolveTwo_loc_ne_pc {dst : Dest} (h : dst ≠ ⟨Reg.pc, .register⟩) (bw : Width) (src : Operand)
    (s : State) : (resolveTwo bw src dst s).loc ≠ .reg Reg.pc := by
  obtain ⟨r, m⟩ := dst
  cases m with
  | memory => simp [resolveTwo, resolveDst]
  | register => simpa [resolveTwo, resolveDst] using h

/-- Settles O35: each path leaves PC as the resolvers do, unless PC is the location written. -/
theorem pcEndsAfterTheLastWord : Obligations.PcEndsAfterTheLastWord := by
  refine ⟨fun bw op s t hl h => ?_, fun bw op s t h => ?_, fun bw src dst s t h => ?_⟩
  · rw [← pc_resolveSrc bw]
    rcases h with h | h | h | h <;> cases h
    · exact reg_commit_ne hl Reg.pc_ne_sr
    · exact reg_writeLoc_ne hl
    · exact reg_commit_ne hl Reg.pc_ne_sr
    · exact reg_commit_ne hl Reg.pc_ne_sr
  · cases h
    exact pc_resolveStackOperand bw op s
  · rw [← pc_resolveTwo bw]
    rcases h with h | ⟨hd, h⟩
    · cases h
      exact reg_writeFlags_ne _ _ _ Reg.pc_ne_sr
    have hl := resolveTwo_loc_ne_pc hd bw src s
    rcases h with h | h | h | h | h | h | h <;> cases h
    · exact reg_writeLoc_ne hl
    · exact reg_commit_ne hl Reg.pc_ne_sr
    · exact reg_commit_ne hl Reg.pc_ne_sr
    · exact reg_writeLoc_ne hl
    · exact reg_writeLoc_ne hl
    · exact reg_commit_ne hl Reg.pc_ne_sr
    · exact reg_commit_ne hl Reg.pc_ne_sr

end Sys2Proof.Machine
end

section
/-! PUSH and CALL, against spec/41_single_operand.md R175 and R176, and the idioms that undo them. -/

namespace Sys2Proof.Machine

open Sys2Proof.Safety

/-- Where SP stands when PUSH and CALL write (decision D27). -/
theorem sp_resolveStackOperand (bw : Width) (op : Operand) (s : State) :
    (resolveStackOperand bw op s).st.sp =
      if steps op = some Reg.sp then (if bw = .word then s.sp else s.sp - 1#16) else s.sp - 2#16 := by
  have moved : (s.setSp (s.sp - 2#16)).reg Reg.sp = s.sp - 2#16 := State.reg_setReg_same ..
  rw [resolveStackOperand]
  split
  · next hs =>
    rw [State.sp, reg_resolveSrc_steps hs, moved]
    cases bw with
    | word => exact BitVec.sub_add_cancel _ _
    | byte => simp only [reduceCtorEq, if_false]; bv_omega
  · next hs => exact (reg_resolveSrc Reg.sp_ne_pc hs).trans moved

theorem sr_resolveStackOperand (bw : Width) (op : Operand) (s : State) : (resolveStackOperand bw op s).st.sr = s.sr :=
  (sr_resolveSrc ..).trans (State.reg_setReg_ne _ _ _ _ Reg.sr_ne_sp)

theorem holds_store {s : State} (hm : s.mem.wf = true) (bw : Width) (a v : Word) :
    holds bw (.mem a) v (s.store bw a v) := by
  cases bw with
  | word => exact ⟨Memory.read_writeWord_lo hm, fun _ => Memory.read_writeWord_hi hm⟩
  | byte => exact ⟨Memory.read_write_same hm, fun h => by cases h⟩

/-- Settles O19: the operand's value is stored at SP as its resolution leaves it. -/
theorem pushWritesAtTheNewTop : Obligations.PushWritesAtTheNewTop := by
  intro bw op s hm r top
  have sp : r.st.sp = top := sp_resolveStackOperand bw op s
  have wf : r.st.mem.wf = true := by rwa [mem_resolveSrc]
  have stored := holds_store wf bw r.st.sp (readLoc bw r.loc r.st)
  refine ⟨singleWord_and_top 4#3 bw op, _, exec_push bw op s, sp, sr_resolveStackOperand bw op s, ?_⟩
  rw [← sp]
  exact stored

/-- Settles O20: the address stored is PC as the operand's resolution leaves it. -/
theorem callPushesReturnAddress : Obligations.CallPushesReturnAddress := by
  intro bw op s hm r top
  have sp : r.st.sp = top := sp_resolveStackOperand bw op s
  have pc : r.st.pc = s.pc + BitVec.ofNat 16 (2 * (Instr.call bw op).extWords) := pc_resolveStackOperand bw op s
  have wf : r.st.mem.wf = true := by rwa [mem_resolveSrc]
  have stored := holds_store wf .word r.st.sp r.st.pc
  refine ⟨singleWord_and_top 5#3 bw op, _, exec_call bw op s, State.reg_setReg_same .., ?_, ?_, ?_⟩
  · exact (State.reg_setReg_ne _ _ _ _ Reg.sp_ne_pc).trans sp
  · exact (State.reg_setReg_ne _ _ _ _ Reg.sr_ne_pc).trans (sr_resolveStackOperand bw op s)
  · rw [← sp, ← pc]
    exact stored

/-- The pop idiom (R175): the word at SP goes to the register, and SP moves up first. -/
theorem exec_pop (n : Reg) (u : State) : exec (.mov .word ⟨Reg.sp, .autoinc⟩ ⟨n, .register⟩) u =
    .next ((u.setSp (u.sp + 2#16)).setReg n (u.mem.readWord u.sp)) := by
  rw [exec_mov]
  simp [writeTwo, resolveTwo, resolveSrc_autoinc, resolveDst, writeLoc, regWriteValue, readLoc, Memory.load]

/-- SP after a pop of what was pushed by an operand that does not step SP. -/
theorem sp_resolveStackOperand_add {op : Operand} (hs : steps op ≠ some Reg.sp) (bw : Width) (s : State) :
    (resolveStackOperand bw op s).st.sp + 2#16 = s.sp := by
  rw [sp_resolveStackOperand, if_neg hs, BitVec.sub_add_cancel]

/-- Settles O58: the return pops the word CALL stored. -/
theorem callThenReturn : Obligations.CallThenReturn := by
  intro bw op s hm hs
  let r := resolveStackOperand bw op s
  have wf : r.st.mem.wf = true := by rwa [mem_resolveStackOperand]
  refine ⟨_, exec_call bw op s, fun u hmem hsp => ⟨_, exec_pop Reg.pc u, ?_, ?_, hmem⟩⟩
  all_goals
    have sp : u.sp = r.st.sp := hsp.trans (State.reg_setReg_ne _ _ _ _ Reg.sp_ne_pc)
    have mem : u.mem = r.st.mem.store .word r.st.sp r.st.pc := hmem
  · rw [State.pc, State.reg_setReg_same, sp, mem, Memory.readWord_store_word _ _ wf]
    exact pc_resolveStackOperand bw op s
  · rw [State.sp, State.reg_setReg_ne _ _ _ _ Reg.sp_ne_pc, State.reg_setReg_same, sp]
    exact sp_resolveStackOperand_add hs bw s

/-- Settles O59: the pop reads the word PUSH stored. -/
theorem pushThenPop : Obligations.PushThenPop := by
  intro op n s hm hs r
  have wf : r.st.mem.wf = true := by rwa [mem_resolveSrc]
  have top : (pushState .word op s).mem.readWord (pushState .word op s).sp = readLoc .word r.loc r.st :=
    Memory.readWord_store_word _ _ wf
  have sp : (pushState .word op s).sp + 2#16 = s.sp := sp_resolveStackOperand_add hs .word s
  refine ⟨_, _, exec_push .word op s, exec_pop n _, (State.reg_setReg_same ..).trans top, fun hn => ?_, rfl⟩
  exact (State.reg_setReg_ne _ _ _ _ hn.symm).trans ((State.reg_setReg_same ..).trans sp)

end Sys2Proof.Machine
end

section
/-! The reach of the jumps, against spec/43_jump.md sections 1 and 3, and the assembler's displacement
(spec/30_encoding.md section 6). -/

namespace Sys2Proof.Machine

/-- Bit 0 is the parity. -/
theorem getLsbD_zero_eq_iff (v w : Word) : v.getLsbD 0 = w.getLsbD 0 ↔ v.toNat % 2 = w.toNat % 2 := by
  rw [BitVec.getLsbD, BitVec.getLsbD, Nat.testBit_zero, Nat.testBit_zero, decide_eq_decide]
  omega

theorem ofInt_toNat_add (a : Word) (k : Int) : BitVec.ofInt 16 (a.toNat + k) = a + BitVec.ofInt 16 k := by
  rw [BitVec.ofInt_add, BitVec.ofInt_natCast, BitVec.ofNat_toNat, BitVec.setWidth_eq]

/-- A jump moves PC by an even distance of ten signed bits, 0 when it is not taken. -/
theorem pc_jumpIf (taken : Bool) (off : BitVec 10) (s : State) :
    ∃ d : Int, -512 ≤ d ∧ d ≤ 511 ∧ (jumpIf taken off s).pc = BitVec.ofInt 16 (s.pc.toNat + 2 * d) := by
  cases taken with
  | false => exact ⟨0, by decide, by decide, by simp [jumpIf]⟩
  | true =>
    refine ⟨off.toInt, BitVec.le_toInt off, Int.le_of_lt_add_one (BitVec.toInt_lt (x := off)), ?_⟩
    rw [jumpIf, add_jumpOffset]
    exact State.reg_setReg_same ..

/-- Settles O37: each of the eight is `jumpIf` of its condition. -/
theorem jumpReachAndParity : Obligations.JumpReachAndParity := by
  intro off i s t hi ht
  obtain ⟨taken, rfl⟩ : ∃ taken, jumpIf taken off s = t := by
    simp only [List.mem_cons, List.not_mem_nil, or_false] at hi
    rcases hi with rfl | rfl | rfl | rfl | rfl | rfl | rfl | rfl <;> exact ⟨_, exec_next_unique rfl ht⟩
  obtain ⟨d, low, high, pc⟩ := pc_jumpIf taken off s
  rw [getLsbD_zero_eq_iff, pc]
  have value : (BitVec.ofInt 16 (s.pc.toNat + 2 * d)).toNat = ((s.pc.toNat + 2 * d) % 65536).toNat :=
    BitVec.toNat_ofInt ..
  refine ⟨⟨2 + 2 * d, by omega, by omega, by omega, ?_⟩, ?_⟩
  · rw [ofInt_toNat_add, ofInt_toNat_add, BitVec.ofInt_add, ← BitVec.add_assoc]
    exact congrArg (· + _) (BitVec.sub_add_cancel s.pc 2#16).symm
  · omega

/-- The ten bits hold every even distance from -1024 to 1022, halved. -/
theorem jumpOffset_extractLsb' {d : Word} (even : d.getLsbD 0 = false) (low : -1024 ≤ d.toInt)
    (high : d.toInt ≤ 1022) : jumpOffset (d.extractLsb' 1 10) = d := by
  have bits : (d.extractLsb' 1 10).toNat = d.toNat / 2 % 1024 := by
    rw [BitVec.extractLsb'_toNat, Nat.shiftRight_eq_div_pow]
  rw [getLsbD_eq_false_iff] at even
  have cases : d.toNat ≤ 1022 ∨ 64512 ≤ d.toNat := by
    rw [BitVec.toInt_eq_toNat_cond] at low high
    split at low <;> omega
  apply BitVec.eq_of_toNat_eq
  rw [jumpOffset, BitVec.toNat_shiftLeft, BitVec.toNat_signExtend, BitVec.toNat_setWidth_of_le (by decide),
    BitVec.msb_eq_decide, bits, Nat.shiftLeft_eq]
  simp only [decide_eq_true_eq]
  split <;> omega
/-- Settles O38: the formula halves the distance, and the jump doubles it again. -/
theorem assembledJumpGoesToItsTarget : Obligations.AssembledJumpGoesToItsTarget := by
  intro at_ target s hpc even low high
  have distance : jumpOffset (Assembler.jumpTo at_ target) = target - s.pc := by
    rw [Assembler.jumpTo, ← hpc]
    exact jumpOffset_extractLsb' even low high
  have taken : jumpIf true (Assembler.jumpTo at_ target) s = s.setPc target := by
    rw [jumpIf, if_pos rfl, distance, BitVec.add_comm, BitVec.sub_add_cancel]
  exact congrArg _ taken

end Sys2Proof.Machine
end

section
/-! The driver's tick, against spec/60_exceptions.md R280 to R282. -/

namespace Sys2Proof.Machine

namespace Driver

/-- The step is total, so the driver's core is the next state (R275). -/
theorem step_eq_stepCore (s : State) : step s = .next (stepCore s) := by
  obtain ⟨t, ht, -⟩ := stepAlwaysAnswersANextState s
  rw [stepCore, ht]

/-- A step that begins and ends in the same run state raises nothing. -/
theorem raised_eq_none_of_run_eq {before after : State} (h : after.run = before.run) : raised before after = none := by
  rw [raised, h]
  cases before.run <;> rfl

section
variable {d : Driver}

theorem checkBreakpoint_of_mem (h : d.core.pc ∈ d.breakpoints) :
    d.checkBreakpoint = { d with mode := .verbose, timerRunning := false } := by
  rw [checkBreakpoint, if_pos (List.contains_iff_mem.mpr h)]

theorem checkBreakpoint_of_not_mem (h : d.core.pc ∉ d.breakpoints) : d.checkBreakpoint = d := by
  rw [checkBreakpoint, if_neg (mt List.contains_iff_mem.mp h)]

theorem core_checkBreakpoint (d : Driver) : d.checkBreakpoint.core = d.core := by
  rw [checkBreakpoint]
  split <;> rfl

theorem busy_checkBreakpoint (d : Driver) : d.checkBreakpoint.busy = d.busy := by
  rw [checkBreakpoint]
  split <;> rfl

/-- A tick of a driver that is not busy, whether or not the step raises. -/
theorem tick_of_idle (hb : d.busy = false) :
    d.tick.1.core = stepCore d.core ∧ d.tick.1.busy = false ∧ d.tick.1.mode = d.checkBreakpoint.mode ∧
    (∀ record, raised d.core (stepCore d.core) = some record →
      d.tick.1.timerRunning = false ∧ DriverEvent.reported record ∈ d.tick.2) ∧
    (raised d.core (stepCore d.core) = none → d.tick.1.timerRunning = d.checkBreakpoint.timerRunning) := by
  simp only [tick, hb, core_checkBreakpoint, Bool.false_eq_true, if_false]
  cases raised d.core (stepCore d.core) with
  | none => simp [busy_checkBreakpoint, hb]
  | some record => simp [busy_checkBreakpoint, hb]

end

end Driver

/-- Settles O60: the breakpoint is looked at first, then the core makes its one step, then a fault is reported. -/
theorem tickMakesOneStep : Obligations.TickMakesOneStep := by
  intro d
  refine ⟨fun hb => by rw [Driver.tick, if_pos hb], fun hb => ?_⟩
  obtain ⟨core, busy, mode, fault, noFault⟩ := Driver.tick_of_idle hb
  rw [core, mode]
  refine ⟨Driver.step_eq_stepCore d.core, busy, fun hit => ?_, fun record running halted => ?_, fun miss same => ?_⟩
  · rw [Driver.checkBreakpoint_of_mem hit] at noFault ⊢
    refine ⟨rfl, ?_⟩
    cases h : Driver.raised d.core (Driver.stepCore d.core) with
    | none => exact noFault h
    | some record => exact (fault record h).1
  · exact fault record (by rw [Driver.raised, running, halted])
  · rw [Driver.checkBreakpoint_of_not_mem miss] at noFault ⊢
    exact ⟨rfl, noFault (Driver.raised_eq_none_of_run_eq same)⟩

end Sys2Proof.Machine
end
